-- ==== Sys2Proof/Word.lean ====
section
/-! DEFINITION. The words the block moves: bytes, command words and response words (R9, R60, R64). -/

namespace Sys2Proof

/-- `u8` of rule R9: one byte. -/
abbrev Byte := BitVec 8

/-- A 16-bit command word, as issued on a port (R60). -/
abbrev CmdWord := BitVec 16

/-- A 32-bit response word, as returned to a port (R64). -/
abbrev RespWord := BitVec 32

end Sys2Proof
end

