-- ==== Sys2Proof/Syntax.lean ====
section
/-! DEFINITION. The ports, the commands (one constructor per row of the opcode table) and the agents' actions. -/

namespace Sys2Proof

/-- The three command ports (R60, D2): producer, consumer, CRC. -/
inductive Port where
  | P
  | C
  | K
deriving DecidableEq, Repr

/-- One value for each port. -/
structure PerPort (α : Type) where
  onP : α
  onC : α
  onK : α
deriving DecidableEq, Repr

/-- The value that belongs to a port. -/
def PerPort.get {α : Type} (x : PerPort α) : Port → α
  | .P => x.onP
  | .C => x.onC
  | .K => x.onK

/-- The family with the value of one port replaced. -/
def PerPort.set {α : Type} (x : PerPort α) (p : Port) (v : α) : PerPort α :=
  match p with
  | .P => { x with onP := v }
  | .C => { x with onC := v }
  | .K => { x with onK := v }

/-- The commands of rule R61, one constructor per row of the opcode table. Each carries the port it is issued
on, its implicit operand (R62), and the byte operand where the format gives one. DESIGN CHOICE, log entry 14. -/
inductive Instr where
  /-- PUT (R81). -/
  | put (p : Port) (b : Byte)
  /-- GET (R82). -/
  | get (p : Port)
  /-- AVAIL (R83). -/
  | avail (p : Port)
  /-- FREE (R84). -/
  | free (p : Port)
  /-- CLEAR (R85). -/
  | clear (p : Port)
  /-- CRC.INIT (R103). -/
  | crcInit (p : Port)
  /-- CRC.FEED (R104). -/
  | crcFeed (p : Port) (b : Byte)
  /-- CRC.READ (R105). -/
  | crcRead (p : Port)
  /-- CRC.CHECK (R106). -/
  | crcCheck (p : Port) (c : Byte)
deriving DecidableEq, Repr

/-- The port a command is issued on (R62). -/
def Instr.port : Instr → Port
  | .put p _ => p
  | .get p => p
  | .avail p => p
  | .free p => p
  | .clear p => p
  | .crcInit p => p
  | .crcFeed p _ => p
  | .crcRead p => p
  | .crcCheck p _ => p

/-- One step an agent can take (R131): issue the next command of a port, one of the two synchroniser steps
(R27), or one of the three host actions (R132). -/
inductive Action where
  | command (p : Port)
  | syncT
  | syncH
  | reset
  | quiesce
  | resume
deriving DecidableEq, Repr

end Sys2Proof
end

