-- ==== Sys2Proof/WellFormed.lean ====
section
/-! DEFINITION. Which commands are well formed: those issued on a port that is legal for them (R63). -/

namespace Sys2Proof

/-- The ports a command is legal on (R61, R63). -/
def Instr.legalPorts : Instr → List Port
  | .put _ _ => [.P]
  | .get _ => [.C]
  | .avail _ => [.P, .C]
  | .free _ => [.P, .C]
  | .clear _ => [.C]
  | .crcInit _ => [.K]
  | .crcFeed _ _ => [.K]
  | .crcRead _ => [.K]
  | .crcCheck _ _ => [.K]

/-- A command is well formed when its port is legal for it (R63). The byte operand needs no check: all 256
values are legal (R81 (5), R104 (3)). -/
def Instr.wellFormed (i : Instr) : Bool := i.legalPorts.contains i.port

end Sys2Proof
end

