-- ==== Sys2Proof/Decode.lean ====
section
/-! DEFINITION. The decoder of rule R67 and, after it, the encoder of rules R60, R61 and R68. -/

namespace Sys2Proof

/-! ### The fields of a command word (R60) -/

/-- `op = w[15:12]`. -/
def opField (w : CmdWord) : BitVec 4 := w.extractLsb' 12 4

/-- `rsv = w[11:8]`. -/
def rsvField (w : CmdWord) : BitVec 4 := w.extractLsb' 8 4

/-- `imm8 = w[7:0]` (R62): an unsigned byte used as is. -/
def immField (w : CmdWord) : Byte := w.extractLsb' 0 8

/-! ### Decoding -/

/-- The four grounds on which a command word is illegal (R66 (a) to (d)). -/
inductive IllegalWord where
  /-- (a) `op` is 0x0, 0x6, 0x7 or 0xC to 0xF. -/
  | reservedOp
  /-- (b) `rsv != 0`. -/
  | reservedBits
  /-- (c) `op` takes no operand and `imm8 != 0`. -/
  | operandNotZero
  /-- (d) the port is not legal for `op`. -/
  | wrongPort
deriving DecidableEq, Repr

/-- What decoding answers (R67): a command, or that the word is illegal and on which ground. -/
inductive Decoded where
  | cmd (i : Instr)
  | illegal (why : IllegalWord)
deriving DecidableEq, Repr

/-- Whether a command takes the byte operand (R60). -/
def Instr.takesOperand : Instr → Bool
  | .put _ _ => true
  | .get _ => false
  | .avail _ => false
  | .free _ => false
  | .clear _ => false
  | .crcInit _ => false
  | .crcFeed _ _ => true
  | .crcRead _ => false
  | .crcCheck _ _ => true

/-- The command an operation code stands for (R61); none for the reserved codes. -/
def commandOf (p : Port) (op : BitVec 4) (imm : Byte) : Option Instr :=
  if op = 0x1#4 then some (.put p imm)
  else if op = 0x2#4 then some (.get p)
  else if op = 0x3#4 then some (.avail p)
  else if op = 0x4#4 then some (.free p)
  else if op = 0x5#4 then some (.clear p)
  else if op = 0x8#4 then some (.crcInit p)
  else if op = 0x9#4 then some (.crcFeed p imm)
  else if op = 0xA#4 then some (.crcRead p)
  else if op = 0xB#4 then some (.crcCheck p imm)
  else none

/-- The decode function of rule R67, total on every port and every 16-bit word, with its tests in the rule's
order. -/
def decode (p : Port) (w : CmdWord) : Decoded :=
  match commandOf p (opField w) (immField w) with
  | none => .illegal .reservedOp
  | some i =>
    if rsvField w ≠ 0#4 then .illegal .reservedBits
    else if i.takesOperand = false ∧ immField w ≠ 0#8 then .illegal .operandNotZero
    else if i.wellFormed = false then .illegal .wrongPort
    else .cmd i

/-- The decoded command, if the word is legal. -/
def Decoded.toOption : Decoded → Option Instr
  | .cmd i => some i
  | .illegal _ => none

/-! ### Encoding -/

/-- The operation code of a command (R61). -/
def Instr.opcode : Instr → BitVec 4
  | .put _ _ => 0x1#4
  | .get _ => 0x2#4
  | .avail _ => 0x3#4
  | .free _ => 0x4#4
  | .clear _ => 0x5#4
  | .crcInit _ => 0x8#4
  | .crcFeed _ _ => 0x9#4
  | .crcRead _ => 0xA#4
  | .crcCheck _ _ => 0xB#4

/-- The `imm8` field of a command: its byte operand, and 0x00 for an operand-free command (R60). -/
def Instr.imm : Instr → Byte
  | .put _ b => b
  | .get _ => 0#8
  | .avail _ => 0#8
  | .free _ => 0#8
  | .clear _ => 0#8
  | .crcInit _ => 0#8
  | .crcFeed _ b => b
  | .crcRead _ => 0#8
  | .crcCheck _ c => c

/-- A command word from its three fields, `op` highest (R60, R68). -/
def wordOf (op rsv : BitVec 4) (imm : Byte) : CmdWord := op ++ rsv ++ imm

/-- The command word of a command (R68): `{op, 0b0000, imm8}`. It is issued on `i.port`. -/
def encode (i : Instr) : CmdWord := wordOf i.opcode 0#4 i.imm

/-! ### Words without a port -/

/-- The port a bare word is taken to be issued on: the first of P, C, K on which it is legal, and P if it is
legal on none. DESIGN CHOICE, log entry 6: a word of the opcode table says nothing of its port. -/
def portOfWord (w : CmdWord) : Port :=
  match decode .P w, decode .C w, decode .K w with
  | .cmd _, _, _ => .P
  | _, .cmd _, _ => .C
  | _, _, .cmd _ => .K
  | _, _, _ => .P

/-- The first 16-bit word of an instruction given as a number of `nbits` bits; the bits above `nbits` are 0. -/
def firstWord (nbits w : Nat) : CmdWord := BitVec.ofNat 16 (w % 2 ^ nbits)

/-- The instruction the decoder reads from a word of the opcode table, on the port `portOfWord` gives it. -/
def decodeTableWord (nbits w : Nat) : Option Instr :=
  (decode (portOfWord (firstWord nbits w)) (firstWord nbits w)).toOption

end Sys2Proof
end

