-- ==== Sys2Proof/Config.lean ====
section
/-! DEFINITION. The implementation parameters of rule R4 and the values the spec leaves free (I1, I2). -/

namespace Sys2Proof

/-- `VIEW_MODE` (R4, R26): whether a port sees the other port's index through a register that lags. -/
inductive ViewMode where
  | lagging
  | coherent
deriving DecidableEq, Repr

/-- The parameters of a block instance (R4), fixed for its whole lifetime. -/
structure Params where
  /-- The number of storage slots. -/
  N : Nat
  viewMode : ViewMode
deriving DecidableEq, Repr

/-- The legal values of the parameters: `2 <= N <= 65536` (R4). -/
abbrev Params.wf (c : Params) : Prop := 2 ≤ c.N ∧ c.N ≤ 65536

/-- `IDX_W = max(1, ceil(log2 N))` (R4, D4), the width of `head`, `tail` and the views. -/
def Params.idxW (c : Params) : Nat := max 1 (if c.N ≤ 1 then 0 else Nat.log2 (c.N - 1) + 1)

/-- The reference value of `N` and the default of `VIEW_MODE` (R4). DESIGN CHOICE, log entry 1: `State.reset`
is the block with these; the meanings read the parameters from the state and hold for every value. -/
def Params.reference : Params := { N := 256, viewMode := .lagging }

/-- What slot `slot` of storage holds after the `draw`-th RESET until a PUT writes it (R36, R140, I1): any byte,
so a free value. Log entry 8. -/
opaque Config.storageAfterReset (draw slot : Nat) : Byte

/-- What `acc` holds after the `draw`-th RESET until CRC.INIT writes it (R36, R140, I2): any byte, so a free
value. Log entry 9. -/
opaque Config.accAfterReset (draw : Nat) : Byte

end Sys2Proof
end

