-- ==== Sys2Proof/Machine/State.lean ====
section
/-! DEFINITION. The state of the block (R20 to R36), the reasons the model stops, and the state after reset. -/

namespace Sys2Proof.Machine

open Sys2Proof

/-- The storage space of rule R40: (slot, byte) pairs with strictly rising slots; a slot not listed has not been
written since the last RESET. -/
abbrev Memory := List Host.Cell

/-- Why the model stops. No instruction of the spec stops on every path, and no fault of the spec is one of
these: the block's own faults (R123) are next states with `faultCode` set. -/
inductive Fault where
  /-- Raised by `step` when `schedule` is empty: no agent takes another step, so the run is over. Safe: nothing
  is concluded of what the block would do. Log entry 5. -/
  | scheduleEnded
  /-- Raised by a storage access at a slot at or above `N`, which does not exist (R40). Only a state that no run
  reaches holds such an index (I10). Safe. Log entry 13. -/
  | noSuchSlot
deriving DecidableEq, Repr

/-- Why the model gives an instruction no meaning. -/
inductive Refusal where
  /-- Raised by an arm of `exec` whose instruction has no meaning yet. Safe. No arm raises it now. -/
  | notModelled (mnemonic : String)
deriving DecidableEq, Repr

/-- The machine's state. The first nine fields after `cfg` are the state elements of rule R20 with the register
summary of rule R35; `pc` is the command index of rule R32; the rest are the model's own (log entries 1, 3, 6, 7
and 10). -/
structure State where
  /-- The parameters `N` and `VIEW_MODE` (R4): never written. -/
  cfg : Params
  /-- `storage[0..N-1]` (R21). -/
  storage : Memory
  /-- The slot the next successful PUT writes (R22). -/
  head : Nat
  /-- The slot the next successful GET reads (R23). -/
  tail : Nat
  /-- `tail_view_p`, the producer's view of `tail` (R26); absent, and held at 0, in `coherent` mode. -/
  tailViewP : Nat
  /-- `head_view_c`, the consumer's view of `head` (R26); absent, and held at 0, in `coherent` mode. -/
  headViewC : Nat
  /-- `p_en`, the producer-enable level (R29). -/
  pEn : Bool
  /-- `acc`, the CRC accumulator (R30). -/
  acc : Byte
  /-- `acc_valid` (R31). -/
  accValid : Bool
  /-- `fault_code` (R34): 0, or the cause code of the first fault. -/
  faultCode : BitVec 8
  /-- `pc_X`: the position in port X's list of the next command to issue (R32). -/
  pc : PerPort Nat
  /-- The command list of each port's agent (R32): an input. -/
  cmds : PerPort (List CmdWord)
  /-- The responses given on each port so far, oldest first (R64): an output no command reads. -/
  resp : PerPort (List RespWord)
  /-- The interleaving: the actions still to be taken, in order (R51, R125): an input. -/
  schedule : List Action
  /-- How many RESETs have been taken: each draws fresh unspecified bytes (R140). -/
  draws : Nat
deriving DecidableEq, Repr

/-- The state after RESET from power-up of a block with the given parameters (R36, R140), with no command list,
no response and no schedule. `acc` is unspecified there; its 0x00 is a DESIGN CHOICE, log entry 9. -/
def State.powerUp (c : Params) : State where
  cfg := c
  storage := []
  head := 0
  tail := 0
  tailViewP := 0
  headViewC := 0
  pEn := true
  acc := 0x00#8
  accValid := false
  faultCode := 0x00#8
  pc := ⟨0, 0, 0⟩
  cmds := ⟨[], [], []⟩
  resp := ⟨[], [], []⟩
  schedule := []
  draws := 0

/-- The machine right after reset, with the reference parameters of rule R4. -/
def State.reset : State := State.powerUp Params.reference

end Sys2Proof.Machine
end

