-- ==== Sys2Proof/Machine/Flags.lean ====
section
/-! DEFINITION. The block has no flags (R33): the outcome of a command is the status of its response. This file
holds the status codes (R65), the response word (R64) and the fault cause codes (R123). -/

namespace Sys2Proof.Machine

open Sys2Proof

/-- The outcome codes of rule R65. -/
inductive Status where
  | ok
  | full
  | empty
  | mismatch
  | fault
deriving DecidableEq, Repr

/-- The 8-bit code of a status (R65). -/
def statusCode : Status → BitVec 8
  | .ok => 0x00#8
  | .full => 0x01#8
  | .empty => 0x02#8
  | .mismatch => 0x03#8
  | .fault => 0xFF#8

/-- The response word of rule R64: `status` in 31:24, 0x00 in 23:16, `data` in 15:0. -/
def respWord (st : Status) (data : BitVec 16) : RespWord := statusCode st ++ 0x00#8 ++ data

/-- The `status` field of a response word (R64). -/
def respStatus (r : RespWord) : BitVec 8 := r.extractLsb' 24 8

/-- The `data` field of a response word (R64). -/
def respData (r : RespWord) : BitVec 16 := r.extractLsb' 0 16

/-- The causes of the block's faults (R123). -/
inductive Cause where
  | illegalCommand
  | crcUninitialised
  | clearWhileProducerActive
deriving DecidableEq, Repr

/-- The code a fault leaves in `fault_code` (R123). -/
def causeCode : Cause → BitVec 8
  | .illegalCommand => 0x01#8
  | .crcUninitialised => 0x02#8
  | .clearWhileProducerActive => 0x03#8

end Sys2Proof.Machine
end

