-- ==== Sys2Proof/Machine/Ops.lean ====
section
/-! DEFINITION. The named operations over storage, views, ports and faults that every meaning is made of. -/

namespace Sys2Proof.Machine

open Sys2Proof

/-! ### Storage (R21, R40, R41) -/

/-- The byte listed for a slot, if a PUT has written it since the last RESET. -/
def Memory.read? : Memory → Nat → Option Byte
  | [], _ => none
  | (b, v) :: m, a => if a = b then some v else Memory.read? m a

/-- The memory with one slot's byte replaced, slots kept strictly rising. -/
def Memory.write : Memory → Nat → Byte → Memory
  | [], a, v => [(a, v)]
  | (b, w) :: m, a, v =>
    if a < b then (a, v) :: (b, w) :: m
    else if a = b then (a, v) :: m
    else (b, w) :: Memory.write m a v

/-- Every listed slot lies above `a`. -/
def Memory.above (a : Nat) : Memory → Bool
  | [] => true
  | (b, _) :: m => decide (a < b) && Memory.above a m

/-- The canonical form: slots strictly rising. A slot not listed has no value of its own, so no entry can equal
what an unlisted slot holds. -/
def Memory.wf : Memory → Bool
  | [] => true
  | (a, _) :: m => Memory.above a m && Memory.wf m

/-- Every listed slot lies below `n`. -/
def Memory.below (n : Nat) : Memory → Bool
  | [] => true
  | (a, _) :: m => decide (a < n) && Memory.below n m

/-- What slot `i` holds: the byte last put there, or the unspecified byte of the last RESET (I1, log entry 8). -/
def slotByte (i : Nat) (s : State) : Byte :=
  (Memory.read? s.storage i).getD (Config.storageAfterReset s.draws i)

/-- `MemRead(i, 1)` of rule R8. None where slot `i` does not exist (R40). -/
def memRead (i : Nat) (s : State) : Option Byte :=
  if i < s.cfg.N then some (slotByte i s) else none

/-- `MemWrite(i, 1, v)` of rule R8. None where slot `i` does not exist (R40). -/
def memWrite (i : Nat) (v : Byte) (s : State) : Option State :=
  if i < s.cfg.N then some { s with storage := Memory.write s.storage i v } else none

/-! ### Index arithmetic (R7, R86) -/

/-- `x mod n` of rule R7: the remainder in `0..n-1`, also when `x` is negative. -/
def modN (x : Int) (n : Nat) : Nat := (x % (n : Int)).toNat

/-- The index increment `(i + 1) mod N` (R86). -/
def nextIndex (i n : Nat) : Nat := (i + 1) % n

/-! ### Index views (R26) -/

/-- A read of `tail_view_p`: in `coherent` mode it reads `tail`. -/
def readTailView (s : State) : Nat :=
  match s.cfg.viewMode with
  | .lagging => s.tailViewP
  | .coherent => s.tail

/-- A read of `head_view_c`: in `coherent` mode it reads `head`. -/
def readHeadView (s : State) : Nat :=
  match s.cfg.viewMode with
  | .lagging => s.headViewC
  | .coherent => s.head

/-- A write of both views: in `coherent` mode it does nothing (R85, R26). -/
def writeViews (t h : Nat) (s : State) : State :=
  match s.cfg.viewMode with
  | .lagging => { s with tailViewP := t, headViewC := h }
  | .coherent => s

/-! ### Responses and command indices (R32, R64) -/

/-- `respond(status, data)` on port `p` (R8): one response word. -/
def respond (p : Port) (st : Status) (data : BitVec 16) (s : State) : State :=
  { s with resp := s.resp.set p (s.resp.get p ++ [respWord st data]) }

/-- `pc_p <- pc_p + 1` (R8, R32). -/
def advance (p : Port) (s : State) : State :=
  { s with pc := s.pc.set p (s.pc.get p + 1) }

/-- What ends every completed command: its response, and its port's index advanced (R32, R80). -/
def complete (p : Port) (st : Status) (data : BitVec 16) (s : State) : State :=
  advance p (respond p st data s)

/-! ### Faults (R121) -/

/-- `if fault_code == 0: fault_code <- code`: the first fault's cause is kept (R121). -/
def recordFault (c : Cause) (s : State) : State :=
  if s.faultCode = 0x00#8 then { s with faultCode := causeCode c } else s

/-- Fault entry (R121): `raise Fault(code)` issued on port `p`. There is no return from it (R128); RESET alone
clears the code (`hostReset`). -/
def raiseFault (p : Port) (c : Cause) (s : State) : State :=
  complete p .fault 0x0000#16 (recordFault c s)

/-! ### Host actions (R132, R140) -/

/-- RESET (R140): every state element at its value of rule R36, the unspecified bytes drawn afresh. The command
lists, the command indices and the responses already given stay (R140, log entry 11). -/
def hostReset (s : State) : State :=
  writeViews 0 0
    { s with
      storage := []
      head := 0
      tail := 0
      pEn := true
      acc := Config.accAfterReset (s.draws + 1)
      accValid := false
      faultCode := 0x00#8
      draws := s.draws + 1 }

/-- QUIESCE (R132): `p_en <- 0`. -/
def hostQuiesce (s : State) : State := { s with pEn := false }

/-- RESUME (R132): `p_en <- 1`. -/
def hostResume (s : State) : State := { s with pEn := true }

/-! ### Synchroniser steps (R27) -/

/-- Whether SYNC_T is enabled (R27). -/
def syncTEnabled (s : State) : Bool :=
  decide (s.cfg.viewMode = .lagging) && decide (s.tailViewP ≠ s.tail) && decide (s.faultCode = 0x00#8)

/-- Whether SYNC_H is enabled (R27). -/
def syncHEnabled (s : State) : Bool :=
  decide (s.cfg.viewMode = .lagging) && decide (s.headViewC ≠ s.head) && decide (s.faultCode = 0x00#8)

/-- SYNC_T (R27): the whole value of `tail` is copied. Not enabled, it is no step and changes nothing. -/
def syncTail (s : State) : State :=
  if syncTEnabled s then { s with tailViewP := s.tail } else s

/-- SYNC_H (R27): the whole value of `head` is copied. Not enabled, it is no step and changes nothing. -/
def syncHead (s : State) : State :=
  if syncHEnabled s then { s with headViewC := s.head } else s

/-! ### The common command step (R80, R124) -/

/-- Whether a command on port `p` is held (R80, R134). -/
def held (p : Port) (s : State) : Bool := decide (p = .P) && !s.pEn

/-- The first two tests of rule R80, in the order of rule R124: a held command has no step and changes nothing
(log entry 4); on a faulted block every command responds FAULT and does nothing else (R122). -/
def gate (p : Port) (s : State) (body : State → Host.Outcome State Fault Refusal) :
    Host.Outcome State Fault Refusal :=
  if held p s then .next s
  else if s.faultCode ≠ 0x00#8 then .next (complete p .fault 0x0000#16 s)
  else body s

/-- The common step of rule R80 for a command: the gate, then the port's legality (R63, R66 (d)), then the
command's own rule. -/
def runCommand (i : Instr) (s : State) (body : State → Host.Outcome State Fault Refusal) :
    Host.Outcome State Fault Refusal :=
  gate i.port s fun s =>
    if i.wellFormed then body s else .next (raiseFault i.port .illegalCommand s)

/-- The common step of rule R80 for a word that decodes to no command (R66). -/
def runIllegal (p : Port) (s : State) : Host.Outcome State Fault Refusal :=
  gate p s fun s => .next (raiseFault p .illegalCommand s)

/-! ### Command lists (R32) -/

/-- The command word at `pc_p`: the next command of port `p`'s agent, if its list has one left (R32). -/
def fetch (p : Port) (s : State) : Option CmdWord := (s.cmds.get p)[s.pc.get p]?

/-- A list with `w` at position `k`, words of zeros before it where the list is shorter. -/
def placeAt : List CmdWord → Nat → CmdWord → List CmdWord
  | [], 0, w => [w]
  | [], k + 1, w => 0x0000#16 :: placeAt [] k w
  | _ :: ws, 0, w => w :: ws
  | v :: ws, k + 1, w => v :: placeAt ws k w

/-- The state in which `w` is the next command of port `p`, and issuing it the next action. Log entry 6. -/
def loadNext (p : Port) (w : CmdWord) (s : State) : State :=
  { s with
    cmds := s.cmds.set p (placeAt (s.cmds.get p) (s.pc.get p) w)
    schedule := .command p :: s.schedule }

end Sys2Proof.Machine
end

