-- ==== Sys2Proof/Machine/Operands.lean ====
section
/-! DEFINITION. The operand forms (R62): the byte, zero-extended where it is a result, and the port, which
selects the indices a count command reads (R83). -/

namespace Sys2Proof.Machine

open Sys2Proof

/-- `zext_16` of a byte (R7, R64). -/
def zext16 (b : Byte) : BitVec 16 := b.zeroExtend 16

/-- `zext_16` of a count (R7, R64): at most `N - 1 <= 65535`, so nothing is lost (R86). -/
def count16 (n : Nat) : BitVec 16 := BitVec.ofNat 16 n

/-- The pair (head, tail) as port `p` sees it (R83): its own index live, the other through its view. Port K has
no view. -/
def indicesSeen (p : Port) (s : State) : Option (Nat × Nat) :=
  match p with
  | .P => some (s.head, readTailView s)
  | .C => some (readHeadView s, s.tail)
  | .K => none

/-- The number of bytes queued, as seen from port `p` (R83). -/
def availOn (p : Port) (s : State) : Option Nat :=
  (indicesSeen p s).map fun (h, t) => modN ((h : Int) - (t : Int)) s.cfg.N

/-- The number of bytes that can still be put, as seen from port `p` (R84): `N - 1 - a_X`. -/
def freeOn (p : Port) (s : State) : Option Nat :=
  (availOn p s).map fun a => s.cfg.N - 1 - a

/-- Full as the producer sees it (R81). -/
def fullSeen (s : State) : Bool := decide (nextIndex s.head s.cfg.N = readTailView s)

/-- Empty as the consumer sees it (R82). -/
def emptySeen (s : State) : Bool := decide (s.tail = readHeadView s)

end Sys2Proof.Machine
end

