-- ==== Sys2Proof/Machine/Crc8.lean ====
section
/-! DEFINITION. The CRC function (R101, R102) and the meanings of CRC.INIT, CRC.FEED, CRC.READ and CRC.CHECK
(R103 to R106). -/

namespace Sys2Proof.Machine

open Sys2Proof

/-- One of the 8 shift steps of rule R101: bit 7 is shifted out, and if it was set the polynomial is applied. -/
def crcShift (c : Byte) : Byte := if c.msb then (c <<< 1) ^^^ 0x31#8 else c <<< 1

/-- `k` shift steps. -/
def crcShifts : Nat → Byte → Byte
  | 0, c => c
  | k + 1, c => crcShifts k (crcShift c)

/-- `T`, the 8 shift steps of rule R101 (R110). -/
def crcT (c : Byte) : Byte := crcShifts 8 c

/-- The byte update function of rule R101. -/
def crc8Update (c b : Byte) : Byte := crcT (c ^^^ b)

/-- The CRC of a byte sequence (R102): the fold of `crc8Update` from 0xFF. -/
def crc8 (d : List Byte) : Byte := d.foldl crc8Update 0xFF#8

/-- The test that the three commands other than CRC.INIT begin with: `acc_valid == 0` raises CRC_UNINITIALISED
(R104 to R106). -/
def withAcc (p : Port) (s : State) (body : State → State) : State :=
  if s.accValid then body s else raiseFault p .crcUninitialised s

/-- CRC.INIT (R103): start a new CRC. -/
def execCrcInit (p : Port) (s : State) : Host.Outcome State Fault Refusal :=
  runCommand (.crcInit p) s fun s =>
    .next (complete p .ok 0x0000#16 { s with acc := 0xFF#8, accValid := true })

/-- CRC.FEED (R104): add one byte to the CRC; the response carries the new accumulator. -/
def execCrcFeed (p : Port) (b : Byte) (s : State) : Host.Outcome State Fault Refusal :=
  runCommand (.crcFeed p b) s fun s =>
    .next (withAcc p s fun s =>
      complete p .ok (zext16 (crc8Update s.acc b)) { s with acc := crc8Update s.acc b })

/-- CRC.READ (R105): read the CRC. -/
def execCrcRead (p : Port) (s : State) : Host.Outcome State Fault Refusal :=
  runCommand (.crcRead p) s fun s =>
    .next (withAcc p s fun s => complete p .ok (zext16 s.acc) s)

/-- CRC.CHECK (R106): compare the CRC with a received CRC byte; the accumulator is unchanged in both cases. -/
def execCrcCheck (p : Port) (c : Byte) (s : State) : Host.Outcome State Fault Refusal :=
  runCommand (.crcCheck p c) s fun s =>
    .next (withAcc p s fun s =>
      complete p (if s.acc = c then .ok else .mismatch) (zext16 s.acc) s)

end Sys2Proof.Machine
end

