-- ==== Sys2Proof/Machine/RingBuffer.lean ====
section
/-! DEFINITION. The meanings of PUT, GET, AVAIL, FREE and CLEAR (R81 to R85). -/

namespace Sys2Proof.Machine

open Sys2Proof

/-- PUT (R81): enqueue one byte. -/
def execPut (p : Port) (b : Byte) (s : State) : Host.Outcome State Fault Refusal :=
  runCommand (.put p b) s fun s =>
    if fullSeen s then .next (complete p .full 0x0000#16 s)
    else
      match memWrite s.head b s with
      | none => .fault .noSuchSlot
      | some s' => .next (complete p .ok 0x0000#16 { s' with head := nextIndex s.head s.cfg.N })

/-- GET (R82): dequeue one byte. -/
def execGet (p : Port) (s : State) : Host.Outcome State Fault Refusal :=
  runCommand (.get p) s fun s =>
    if emptySeen s then .next (complete p .empty 0x0000#16 s)
    else
      match memRead s.tail s with
      | none => .fault .noSuchSlot
      | some b => .next (complete p .ok (zext16 b) { s with tail := nextIndex s.tail s.cfg.N })

/-- A count answered on port `p`; a port with no view has no count, and the command is illegal there (R63). -/
def answerCount (p : Port) (n : Option Nat) (s : State) : State :=
  match n with
  | some n => complete p .ok (count16 n) s
  | none => raiseFault p .illegalCommand s

/-- AVAIL (R83): the number of bytes queued, as seen from the issuing port. -/
def execAvail (p : Port) (s : State) : Host.Outcome State Fault Refusal :=
  runCommand (.avail p) s fun s => .next (answerCount p (availOn p s) s)

/-- FREE (R84): the number of bytes that can still be put, as seen from the issuing port. -/
def execFree (p : Port) (s : State) : Host.Outcome State Fault Refusal :=
  runCommand (.free p) s fun s => .next (answerCount p (freeOn p s) s)

/-- CLEAR (R85): discard all queued bytes and return both indices, and both views, to 0. Storage keeps its
bytes. -/
def execClear (p : Port) (s : State) : Host.Outcome State Fault Refusal :=
  runCommand (.clear p) s fun s =>
    if s.pEn then .next (raiseFault p .clearWhileProducerActive s)
    else .next (complete p .ok 0x0000#16 (writeViews 0 0 { s with head := 0, tail := 0 }))

end Sys2Proof.Machine
end

