-- ==== Sys2Proof/Machine/Dispatch.lean ====
section
/-! DEFINITION. One arm per command of the opcode table. -/

namespace Sys2Proof.Machine

open Sys2Proof

def exec (i : Instr) (s : State) : Host.Outcome State Fault Refusal :=
  match i with
  | .put p b => Sys2Proof.Machine.execPut p b s
  | .get p => Sys2Proof.Machine.execGet p s
  | .avail p => Sys2Proof.Machine.execAvail p s
  | .free p => Sys2Proof.Machine.execFree p s
  | .clear p => Sys2Proof.Machine.execClear p s
  | .crcInit p => Sys2Proof.Machine.execCrcInit p s
  | .crcFeed p b => Sys2Proof.Machine.execCrcFeed p b s
  | .crcRead p => Sys2Proof.Machine.execCrcRead p s
  | .crcCheck p c => Sys2Proof.Machine.execCrcCheck p c s

end Sys2Proof.Machine
end

