-- ==== Sys2Proof/Machine/Agents.lean ====
section
/-! DEFINITION. What each agent's action does (R131): issuing a port's next command (R80), a synchroniser step
(R27) or a host action (R132). -/

namespace Sys2Proof.Machine

open Sys2Proof

/-- One command word issued on a port (R80): decoded, and run or found illegal. -/
def issue (p : Port) (w : CmdWord) (s : State) : Host.Outcome State Fault Refusal :=
  match decode p w with
  | .cmd i => exec i s
  | .illegal _ => runIllegal p s

/-- One action of one agent. An action that is not enabled (a held command, a port whose list has ended, a
synchroniser step with nothing to copy) is no step of the block and changes nothing. Log entry 4. -/
def perform (a : Action) (s : State) : Host.Outcome State Fault Refusal :=
  match a with
  | .command p =>
    match fetch p s with
    | some w => issue p w s
    | none => .next s
  | .syncT => .next (syncTail s)
  | .syncH => .next (syncHead s)
  | .reset => .next (hostReset s)
  | .quiesce => .next (hostQuiesce s)
  | .resume => .next (hostResume s)

end Sys2Proof.Machine
end

