-- ==== Sys2Proof/Machine/Step.lean ====
section
/-! DEFINITION. One step of the machine: the next action of the schedule is taken. -/

namespace Sys2Proof.Machine

open Sys2Proof

/-- One step of the block: the schedule says which agent acts next (R51, R125; log entry 3), and that action is
taken. With no action left the run is over (log entry 5). -/
def step (s : State) : Host.Outcome State Fault Refusal :=
  match s.schedule with
  | [] => .fault .scheduleEnded
  | a :: rest => perform a { s with schedule := rest }

/-- The state in which the next step issues the given word, on the first port it is legal on. Log entry 6. -/
def State.withFetchWord (s : State) (nbits w : Nat) : State :=
  loadNext (portOfWord (firstWord nbits w)) (firstWord nbits w) s

end Sys2Proof.Machine
end

