-- ==== Sys2Proof/Machine/Assembler.lean ====
section
/-! DEFINITION. The assembler syntax of rule R68: one command or action a line, read into words and actions. What
the rule leaves open of the spelling is log entry 20. -/

namespace Sys2Proof.Machine

open Sys2Proof

/-- What one line says (R68): nothing (blank or comment), a command word on a port, or a host or synchroniser
action. -/
inductive AsmLine where
  | blank
  | command (p : Port) (w : CmdWord)
  | action (a : Action)
deriving DecidableEq, Repr

/-- A space or a tab. -/
def isSpace (c : Char) : Bool := c.toNat = 32 || c.toNat = 9

/-- The text after its leading spaces. -/
def skipSpaces : List Char → List Char
  | [] => []
  | c :: cs => if isSpace c then skipSpaces cs else c :: cs

/-- Whether a character belongs to a mnemonic: a capital letter, a full stop or an underscore. -/
def isNameChar (c : Char) : Bool := (65 ≤ c.toNat && c.toNat ≤ 90) || c.toNat = 46 || c.toNat = 95

/-- The leading mnemonic of a text, and the rest. -/
def takeName : List Char → List Char × List Char
  | [] => ([], [])
  | c :: cs => if isNameChar c then (c :: (takeName cs).1, (takeName cs).2) else ([], c :: cs)

/-- Whether only spaces and a comment, which starts with two hyphens, are left of a line. -/
def lineEnds (cs : List Char) : Bool :=
  match skipSpaces cs with
  | [] => true
  | [_] => false
  | c :: d :: _ => c.toNat = 45 && d.toNat = 45

/-- The value of a hexadecimal digit of either case. -/
def hexDigit (c : Char) : Option Nat :=
  if 48 ≤ c.toNat ∧ c.toNat ≤ 57 then some (c.toNat - 48)
  else if 65 ≤ c.toNat ∧ c.toNat ≤ 70 then some (c.toNat - 55)
  else if 97 ≤ c.toNat ∧ c.toNat ≤ 102 then some (c.toNat - 87)
  else none

/-- The value of a decimal digit. -/
def decDigit (c : Char) : Option Nat :=
  if 48 ≤ c.toNat ∧ c.toNat ≤ 57 then some (c.toNat - 48) else none

/-- The decimal number a text begins with, `n` being the value of the digits already read, and the rest. -/
def readDecimal (n : Nat) : List Char → Nat × List Char
  | [] => (n, [])
  | c :: cs =>
    match decDigit c with
    | some d => readDecimal (10 * n + d) cs
    | none => (n, c :: cs)

/-- A byte in hexadecimal, `0x00` to `0xFF` (R68). -/
def readHexByte : List Char → Option (Byte × List Char)
  | z :: x :: a :: b :: cs =>
    if z.toNat = 48 ∧ x.toNat = 120 then
      match hexDigit a, hexDigit b with
      | some m, some n => some (BitVec.ofNat 8 (16 * m + n), cs)
      | _, _ => none
    else none
  | _ => none

/-- A byte as a character literal, for the bytes 0x20 to 0x7E (R68). -/
def readCharByte : List Char → Option (Byte × List Char)
  | q :: c :: r :: cs =>
    if q.toNat = 39 ∧ r.toNat = 39 ∧ 0x20 ≤ c.toNat ∧ c.toNat ≤ 0x7E then
      some (BitVec.ofNat 8 c.toNat, cs)
    else none
  | _ => none

/-- A byte in decimal, `0` to `255` (R68). -/
def readDecByte : List Char → Option (Byte × List Char)
  | [] => none
  | c :: cs =>
    match decDigit c with
    | none => none
    | some _ =>
      if (readDecimal 0 (c :: cs)).1 ≤ 255 then
        some (BitVec.ofNat 8 (readDecimal 0 (c :: cs)).1, (readDecimal 0 (c :: cs)).2)
      else none

/-- The three spellings of `imm8` (R68). -/
def readByte (cs : List Char) : Option (Byte × List Char) :=
  (readHexByte cs).orElse fun _ => (readCharByte cs).orElse fun _ => readDecByte cs

/-- The spelling of a command's mnemonic (R61, R68). -/
def mnemonic : Instr → List Char
  | .put _ _ => "PUT".toList
  | .get _ => "GET".toList
  | .avail _ => "AVAIL".toList
  | .free _ => "FREE".toList
  | .clear _ => "CLEAR".toList
  | .crcInit _ => "CRC.INIT".toList
  | .crcFeed _ _ => "CRC.FEED".toList
  | .crcRead _ => "CRC.READ".toList
  | .crcCheck _ _ => "CRC.CHECK".toList

/-- Every command, on a port and with an operand where it takes one. -/
def allCommands (p : Port) (b : Byte) : List Instr :=
  [.put p b, .get p, .avail p, .free p, .clear p, .crcInit p, .crcFeed p b, .crcRead p, .crcCheck p b]

/-- The command a mnemonic names. -/
def commandNamed (name : List Char) (p : Port) (b : Byte) : Option Instr :=
  (allCommands p b).find? fun i => decide (mnemonic i = name)

/-- The operand text after a mnemonic: at least one space stands between the two. -/
def operandText : List Char → List Char
  | [] => []
  | c :: cs => if isSpace c then skipSpaces cs else []

/-- A command line after its port (R68): the mnemonic, and the byte where the command takes one. The word is
`op, 0b0000, imm8`; whether the port is legal for it is the decoder's matter (R66). -/
def assembleCommand (p : Port) (cs : List Char) : Option AsmLine :=
  match commandNamed (takeName cs).1 p 0#8 with
  | none => none
  | some i =>
    if i.takesOperand then
      match readByte (operandText (takeName cs).2) with
      | some (b, rest) =>
        if lineEnds rest then some (.command p (wordOf i.opcode 0#4 b)) else none
      | none => none
    else if lineEnds (takeName cs).2 then some (.command p (wordOf i.opcode 0#4 0#8))
    else none

/-- The agent and name of an action without encoding (R68). -/
def actionName : Action → List Char
  | .command _ => []
  | .syncT => "S:SYNC_T".toList
  | .syncH => "S:SYNC_H".toList
  | .reset => "H:RESET".toList
  | .quiesce => "H:QUIESCE".toList
  | .resume => "H:RESUME".toList

/-- A host or synchroniser line after its agent's letter (R68). -/
def assembleAction (agent : Char) (cs : List Char) : Option AsmLine :=
  if lineEnds (takeName cs).2 then
    ([Action.syncT, .syncH, .reset, .quiesce, .resume].find? fun a =>
      decide (actionName a = agent :: ':' :: (takeName cs).1)).map AsmLine.action
  else none

/-- The port a letter names (R68). -/
def portNamed (c : Char) : Option Port :=
  if c.toNat = 80 then some .P
  else if c.toNat = 67 then some .C
  else if c.toNat = 75 then some .K
  else none

/-- One line of assembler text (R68). None where the line is not of the syntax. -/
def assembleLine (text : List Char) : Option AsmLine :=
  if lineEnds text then some .blank
  else
    match skipSpaces text with
    | agent :: colon :: cs =>
      if colon.toNat = 58 then
        match portNamed agent with
        | some p => assembleCommand p (skipSpaces cs)
        | none => assembleAction agent (skipSpaces cs)
      else none
    | _ => none

/-- The letter of a port. -/
def portLetter : Port → Char
  | .P => 'P'
  | .C => 'C'
  | .K => 'K'

/-- A hexadecimal digit as a capital. -/
def hexChar (n : Nat) : Char := if n < 10 then Char.ofNat (48 + n) else Char.ofNat (55 + n)

/-- The assembler text of a command (R68), its operand in hexadecimal. -/
def renderCommand (i : Instr) : List Char :=
  [portLetter i.port, ':', ' '] ++ mnemonic i ++
    if i.takesOperand then
      [' ', '0', 'x', hexChar (i.imm.toNat / 16), hexChar (i.imm.toNat % 16)]
    else []

/-- A program (R32, R68): each port's command list, and the order in which the lines stand. -/
structure Program where
  cmds : PerPort (List CmdWord)
  order : List Action
deriving DecidableEq, Repr

/-- The program of a list of lines: the command list of a port is the commands on its lines, in order. -/
def programOf : List AsmLine → Program
  | [] => ⟨⟨[], [], []⟩, []⟩
  | .blank :: ls => programOf ls
  | .action a :: ls => { programOf ls with order := a :: (programOf ls).order }
  | .command p w :: ls =>
    { cmds := (programOf ls).cmds.set p (w :: (programOf ls).cmds.get p)
      order := .command p :: (programOf ls).order }

/-- The state with a program loaded from outside (R32, log entry 6): its lists after the commands each port
has already issued, and its order as the schedule. -/
def loadProgram (g : Program) (s : State) : State :=
  { s with
    cmds :=
      { onP := s.cmds.onP.take s.pc.onP ++ g.cmds.onP
        onC := s.cmds.onC.take s.pc.onC ++ g.cmds.onC
        onK := s.cmds.onK.take s.pc.onK ++ g.cmds.onK }
    schedule := g.order }

end Sys2Proof.Machine
end

