-- ==== Sys2Proof/Machine/Pseudo.lean ====
section
/-! DEFINITION. Groups and frames (R42 to R44), their validity (R107 to R109), and the pseudo-instructions of rule
R69 as lists of commands. -/

namespace Sys2Proof.Machine

open Sys2Proof

/-- A 3-byte group (R43): the data word's two bytes, most significant first, and the CRC byte. -/
structure Group where
  msb : Byte
  lsb : Byte
  crc : Byte
deriving DecidableEq, Repr

/-- The data word a group carries, big-endian (R42, R44). -/
def groupWord (g : Group) : BitVec 16 := g.msb ++ g.lsb

/-- The bytes of a group in their order (R43). -/
def groupBytes (g : Group) : List Byte := [g.msb, g.lsb, g.crc]

/-- The group that carries a data word with its own CRC (R43). -/
def groupOfWord (w : BitVec 16) : Group where
  msb := w.extractLsb' 8 8
  lsb := w.extractLsb' 0 8
  crc := crc8 [w.extractLsb' 8 8, w.extractLsb' 0 8]

/-- Group validity (R107): `CRC8(m, l) == c`. -/
def groupValid (g : Group) : Bool := decide (crc8 [g.msb, g.lsb] = g.crc)

/-- The 6-byte measurement frame (R44): the temperature group, then the humidity group. -/
structure Frame where
  temperature : Group
  humidity : Group
deriving DecidableEq, Repr

/-- The bytes of a frame in their order (R44). -/
def frameBytes (f : Frame) : List Byte := groupBytes f.temperature ++ groupBytes f.humidity

/-- The frame that six bytes are (R44); a list of another length is no frame. -/
def frameOfBytes : List Byte → Option Frame
  | [b0, b1, b2, b3, b4, b5] => some ⟨⟨b0, b1, b2⟩, ⟨b3, b4, b5⟩⟩
  | _ => none

/-- Frame validity (R108): both groups are valid, each from its own CRC.INIT. -/
def frameValid (f : Frame) : Bool := groupValid f.temperature && groupValid f.humidity

/-- The 3-byte status frame (R44) is one group, valid as a group is (R109). -/
def statusFrameValid (g : Group) : Bool := groupValid g

/-- `CRCOF b0, ..., b(k-1)` (R69). -/
def crcOf (d : List Byte) : List Instr :=
  .crcInit .K :: d.map (.crcFeed .K) ++ [.crcRead .K]

/-- `GROUPCHECK m, l, c` (R69). -/
def groupCheck (g : Group) : List Instr :=
  [.crcInit .K, .crcFeed .K g.msb, .crcFeed .K g.lsb, .crcCheck .K g.crc]

/-- `FRAMECHECK b0, ..., b5` (R69). -/
def frameCheck (f : Frame) : List Instr := groupCheck f.temperature ++ groupCheck f.humidity

/-- `STATUSCHECK s0, s1, s2` (R69). -/
def statusCheck (g : Group) : List Instr := groupCheck g

/-- The commands of a list, one after the other, with no other agent's step between them. -/
def runCommands : List Instr → State → Host.Outcome State Fault Refusal
  | [], s => .next s
  | i :: is, s =>
    match exec i s with
    | .next t => runCommands is t
    | .fault r => .fault r
    | .refused r => .refused r

/-- The actions of a list, one after the other: one interleaving of the agents' steps (R51). -/
def runActions : List Action → State → Host.Outcome State Fault Refusal
  | [], s => .next s
  | a :: as, s =>
    match perform a s with
    | .next t => runActions as t
    | .fault r => .fault r
    | .refused r => .refused r

end Sys2Proof.Machine
end

