-- ==== Sys2Proof/Safety.lean ====
section
/-! DEFINITION. What a legal state is (R28, R35), when an agent can step (R27, R134), what the end of a run is
(R150), and what a run shows at the ports (R47). -/

namespace Sys2Proof.Machine

open Sys2Proof

/-! ### Occupancy on the live indices (R24) -/

/-- `available_true` (R24). -/
def availableTrue (s : State) : Nat := modN ((s.head : Int) - (s.tail : Int)) s.cfg.N

/-- `free_true` (R24). -/
def freeTrue (s : State) : Nat := s.cfg.N - availableTrue s - 1

/-- `full_true` (R24). -/
def fullTrue (s : State) : Bool := decide (nextIndex s.head s.cfg.N = s.tail)

/-- `empty_true` (R24). -/
def emptyTrue (s : State) : Bool := decide (s.head = s.tail)

/-- `lag_t` (R28): how far the producer's view of `tail` is behind. -/
def lagTail (s : State) : Nat := modN ((s.tail : Int) - (readTailView s : Int)) s.cfg.N

/-- `lag_h` (R28): how far the consumer's view of `head` is behind. -/
def lagHead (s : State) : Nat := modN ((s.head : Int) - (readHeadView s : Int)) s.cfg.N

/-- The slot of the `j`-th queued byte, the oldest being the 0-th. -/
def slotAt (s : State) (j : Nat) : Nat := (s.tail + j) % s.cfg.N

/-- The queued bytes, oldest first: the slots from `tail` up to `head`. -/
def queue (s : State) : List Byte :=
  (List.range (availableTrue s)).map fun j => slotByte (slotAt s j) s

/-! ### Legal states -/

/-- The register ranges of rule R35: indices and views in `0..N-1`, `fault_code` 0 or a code of rule R123. -/
abbrev RegistersLegal (s : State) : Prop :=
  s.head < s.cfg.N ∧ s.tail < s.cfg.N ∧ s.tailViewP < s.cfg.N ∧ s.headViewC < s.cfg.N ∧
    (s.faultCode = 0x00#8 ∨ s.faultCode = 0x01#8 ∨ s.faultCode = 0x02#8 ∨ s.faultCode = 0x03#8)

/-- The view invariants of rule R28; and in `coherent` mode the view registers, which are absent there, hold 0
(log entry 12). -/
abbrev ViewsLegal (s : State) : Prop :=
  availableTrue s + lagTail s ≤ s.cfg.N - 1 ∧ lagHead s ≤ availableTrue s ∧
    (s.cfg.viewMode = .coherent → s.tailViewP = 0 ∧ s.headViewC = 0)

/-- Storage is in its canonical form, lists no slot that does not exist, and every queued slot has been written by
a PUT (R28, R82 (4)). -/
abbrev StorageLegal (s : State) : Prop :=
  Memory.wf s.storage = true ∧ Memory.below s.cfg.N s.storage = true ∧
    ∀ j, j < availableTrue s → (Memory.read? s.storage (slotAt s j)).isSome = true

/-- Each port has had exactly one response for each command its index has passed (R32, R64). -/
abbrev PortsLegal (s : State) : Prop :=
  s.resp.onP.length = s.pc.onP ∧ s.resp.onC.length = s.pc.onC ∧ s.resp.onK.length = s.pc.onK

/-- The invariant of the block. -/
abbrev Inv (s : State) : Prop :=
  s.cfg.wf ∧ RegistersLegal s ∧ ViewsLegal s ∧ StorageLegal s ∧ PortsLegal s

/-! ### Answers -/

/-- Port `p` can have a command carried out: nothing holds it (R134) and the block is not faulted (R122). -/
abbrev Ready (p : Port) (s : State) : Prop := s.faultCode = 0x00#8 ∧ (p = .P → s.pEn = true)

/-- The state after a command on port `p` that changed nothing but its port's index, advanced by 1 (R32), and its
port's responses, of which `r` is the newest (R64). -/
def answered (p : Port) (r : RespWord) (s : State) : State :=
  { s with
    pc := s.pc.set p (s.pc.get p + 1)
    resp := s.resp.set p (s.resp.get p ++ [r]) }

/-! ### Enabled steps and the end of a run (R27, R131, R134, R150) -/

/-- Whether an action is a step its agent can take now. -/
def enabled (a : Action) (s : State) : Bool :=
  match a with
  | .command p => (fetch p s).isSome && !held p s
  | .syncT => syncTEnabled s
  | .syncH => syncHEnabled s
  | .reset => true
  | .quiesce => true
  | .resume => true

/-- The actions of the agents other than the host, whose actions are always enabled (R132). DEDUCED, log entry 23. -/
def agentActions : List Action := [.command .P, .command .C, .command .K, .syncT, .syncH]

/-- Whether P, C, K or S can step. -/
def agentCanStep (s : State) : Bool := agentActions.any fun a => enabled a s

/-- A command of port P is waiting for RESUME (R134). -/
def commandHeld (s : State) : Bool := (fetch .P s).isSome && held .P s

/-- The run has ended successfully (R150): (a) every list is at its end, (b) no fault, (c) no command held, (d)
in `lagging` mode both views are current. -/
def successfulEnd (s : State) : Bool :=
  decide (s.pc.onP = s.cmds.onP.length ∧ s.pc.onC = s.cmds.onC.length ∧ s.pc.onK = s.cmds.onK.length) &&
  decide (s.faultCode = 0x00#8) &&
  !commandHeld s &&
  decide (s.cfg.viewMode = .lagging → s.tailViewP = s.tail ∧ s.headViewC = s.head)

/-- A failed end (R150): no agent can step, and the run has not ended successfully. -/
def failedEnd (s : State) : Bool := !agentCanStep s && !successfulEnd s

/-! ### What a run shows at the ports (R47) -/

/-- The bytes of the successful PUTs and of the successful GETs since the last CLEAR or RESET, oldest first. -/
structure History where
  puts : List Byte
  gets : List Byte
deriving DecidableEq, Repr

/-- The response an action added on port `p`, if any. -/
def newResponse (p : Port) (s t : State) : Option RespWord := (t.resp.get p)[(s.resp.get p).length]?

/-- A history after the action `a` took the block from `s` to `t`, read from the command and its response alone:
a PUT or GET counts when its response is OK, and CLEAR, answered OK, and RESET begin a new history. -/
def History.after (h : History) (a : Action) (s t : State) : History :=
  match a with
  | .reset => ⟨[], []⟩
  | .command p =>
    match (fetch p s).map (decode p), newResponse p s t with
    | some (.cmd (.put _ b)), some r =>
      if respStatus r = statusCode .ok then { h with puts := h.puts ++ [b] } else h
    | some (.cmd (.get _)), some r =>
      if respStatus r = statusCode .ok then { h with gets := h.gets ++ [(respData r).truncate 8] } else h
    | some (.cmd (.clear _)), some r => if respStatus r = statusCode .ok then ⟨[], []⟩ else h
    | _, _ => h
  | _ => h

/-- The end state and the history of a list of actions; it stops where an action stops. -/
def observe : List Action → State → History → State × History
  | [], s, h => (s, h)
  | a :: as, s, h =>
    match perform a s with
    | .next t => observe as t (h.after a s t)
    | _ => (s, h)

/-! ### Infinite schedules and fairness (R149) -/

/-- The state after an action, or the same state where the action stops. -/
def afterAction (a : Action) (s : State) : State :=
  match perform a s with
  | .next t => t
  | _ => s

/-- The states of the run that an infinite schedule gives from a state. -/
def trajectory (sched : Nat → Action) (s : State) : Nat → State
  | 0 => s
  | k + 1 => afterAction (sched k) (trajectory sched s k)

/-- Weak fairness of one action on a run (R149): if it stays enabled, it is eventually taken. -/
def WeaklyFair (a : Action) (sched : Nat → Action) (s : State) : Prop :=
  ∀ k, (∀ m, k ≤ m → enabled a (trajectory sched s m) = true) → ∃ m, k ≤ m ∧ sched m = a

/-! ### The two view modes (R26, D5) -/

/-- The `lagging` block that has the same indices as a block and whose views are current. -/
def asLagging (s : State) : State :=
  { s with
    cfg := { s.cfg with viewMode := .lagging }
    tailViewP := s.tail
    headViewC := s.head }

end Sys2Proof.Machine
end

