-- ==== Sys2Proof/Certificates/Slice0/Obligations.lean ====
section
/-! DEFINITION. The statements for the provers. Response words are written out as the 32-bit words of rule R64. -/

open Sys2Proof Sys2Proof.Machine

/-! ### Encoding -/

/-- R67, R68: every well-formed command is read back from its word. -/
def Obligations.DecodeOfEncode : Prop :=
  ∀ i : Instr, i.wellFormed = true → decode i.port (encode i) = .cmd i

/-- R67, R68: a word that decodes is the word of the command it decodes to, on a port legal for it, so no two
words on one port decode to one command. -/
def Obligations.EncodeOfDecode : Prop :=
  ∀ (p : Port) (w : CmdWord) (i : Instr),
    decode p w = .cmd i → i.port = p ∧ i.wellFormed = true ∧ encode i = w

/-- R67: the legal words of each port, listed, and how many there are. -/
def Obligations.LegalWordsOfEachPort : Prop :=
  ∃ legal : Port → List CmdWord,
    legal .P = (List.range 256).map (fun b => BitVec.ofNat 16 (0x1000 + b)) ++ [0x3000#16, 0x4000#16] ∧
    legal .C = [0x2000#16, 0x3000#16, 0x4000#16, 0x5000#16] ∧
    legal .K = [0x8000#16, 0xA000#16] ++
      (List.range 256).map (fun b => BitVec.ofNat 16 (0x9000 + b)) ++
      (List.range 256).map (fun b => BitVec.ofNat 16 (0xB000 + b)) ∧
    (legal .P).length = 258 ∧ (legal .C).length = 4 ∧ (legal .K).length = 514 ∧
    (∀ p, (legal p).Nodup) ∧
    ∀ p w, (∃ i, decode p w = .cmd i) ↔ w ∈ legal p

/-- R66: the four grounds on which a word is illegal, and what an illegal word does. -/
def Obligations.IllegalWordsFault : Prop :=
  ∀ (p : Port) (w : CmdWord),
    ((∃ why, decode p w = .illegal why) ↔
      (w.extractLsb' 12 4).toNat ∈ [0x0, 0x6, 0x7, 0xC, 0xD, 0xE, 0xF] ∨
      w.extractLsb' 8 4 ≠ 0#4 ∨
      ((w.extractLsb' 12 4).toNat ∈ [0x2, 0x3, 0x4, 0x5, 0x8, 0xA] ∧ w.extractLsb' 0 8 ≠ 0#8) ∨
      (p = .P ∧ (w.extractLsb' 12 4).toNat ∉ [0x1, 0x3, 0x4]) ∨
      (p = .C ∧ (w.extractLsb' 12 4).toNat ∉ [0x2, 0x3, 0x4, 0x5]) ∨
      (p = .K ∧ (w.extractLsb' 12 4).toNat ∉ [0x8, 0x9, 0xA, 0xB])) ∧
    ∀ s : State, Ready p s → (∃ why, decode p w = .illegal why) →
      issue p w s = .next (answered p 0xFF000000#32 { s with faultCode := 0x01#8 })

/-- R68, R61: the three example words of rule R68, and a word of each other command on each port that is legal for it,
decode to what they stand for. -/
def Obligations.ExampleWordsDecode : Prop :=
  decode .P 0x1041#16 = .cmd (.put .P 0x41#8) ∧ decode .C 0x2000#16 = .cmd (.get .C) ∧
    decode .K 0xB092#16 = .cmd (.crcCheck .K 0x92#8) ∧ decode .P 0x3000#16 = .cmd (.avail .P) ∧
    decode .C 0x3000#16 = .cmd (.avail .C) ∧ decode .P 0x4000#16 = .cmd (.free .P) ∧
    decode .C 0x4000#16 = .cmd (.free .C) ∧ decode .C 0x5000#16 = .cmd (.clear .C) ∧
    decode .K 0x8000#16 = .cmd (.crcInit .K) ∧ decode .K 0x90EF#16 = .cmd (.crcFeed .K 0xEF#8) ∧
    decode .K 0xA000#16 = .cmd (.crcRead .K)

/-- R68: the text of a command, in the rule's form and with a two-digit hexadecimal operand (log entry 20), assembles to
its word on its port. -/
def Obligations.AssembleOfRender : Prop :=
  ∀ i : Instr, assembleLine (renderCommand i) = some (.command i.port (encode i))

/-! ### The step -/

/-- R80, R131: a step takes the first action of the schedule, which is how the model holds the interleaving (log entry
3), and does nothing around it but take it off. A command action issues the word at its port's index: a word that
decodes runs its command, and an illegal one faults on a ready port; the other actions have their own effects. -/
def Obligations.StepRunsTheDecodedCommand : Prop :=
  ∀ (s : State) (a : Action) (rest : List Action), s.schedule = a :: rest →
    step s = perform a { s with schedule := rest } ∧
    (∀ p w, a = .command p → fetch p s = some w →
      step s = issue p w { s with schedule := rest } ∧
      (∀ i, decode p w = .cmd i → step s = exec i { s with schedule := rest }) ∧
      (∀ why, decode p w = .illegal why → Ready p s →
        step s = .next (answered p 0xFF000000#32 { s with schedule := rest, faultCode := 0x01#8 }))) ∧
    (a = .reset → step s = .next (hostReset { s with schedule := rest })) ∧
    (a = .quiesce → step s = .next { s with schedule := rest, pEn := false }) ∧
    (a = .resume → step s = .next { s with schedule := rest, pEn := true }) ∧
    (a = .syncT → enabled .syncT s = true → step s = .next { s with schedule := rest, tailViewP := s.tail }) ∧
    (a = .syncH → enabled .syncH s = true → step s = .next { s with schedule := rest, headViewC := s.head })

/-- The model's own choice (log entry 6): the word placed by `withFetchWord` is the one the next step runs. -/
def Obligations.PlacedWordIsRun : Prop :=
  ∀ (s : State) (w : Nat) (i : Instr), decodeTableWord 16 w = some i →
    step (s.withFetchWord 16 w) =
      exec i { s with cmds := s.cmds.set i.port (placeAt (s.cmds.get i.port) (s.pc.get i.port) (BitVec.ofNat 16 w)) }

/-- The model's own choice (log entries 4, 5, 13): in a legal state the step stops only when no action is left. -/
def Obligations.StepStopsOnlyWithoutAction : Prop :=
  ∀ s : State, Inv s →
    (s.schedule ≠ [] → ∃ t, step s = .next t) ∧ (s.schedule = [] → step s = .fault .scheduleEnded)

/-! ### Ring buffer commands -/

/-- R81: a PUT that is not refused stores its byte at `head`, advances `head`, answers OK, and changes nothing
else; only the slot `head` of storage changes. -/
def Obligations.PutStoresAtHead : Prop :=
  ∀ (s : State) (b : Byte), Ready .P s → s.head < s.cfg.N → (s.head + 1) % s.cfg.N ≠ readTailView s →
    ∃ t, exec (.put .P b) s = .next t ∧
      t = answered .P 0x00000000#32 { s with head := (s.head + 1) % s.cfg.N, storage := t.storage } ∧
      (Memory.wf s.storage = true → Memory.wf t.storage = true) ∧
      slotByte s.head t = b ∧
      ∀ a, a ≠ s.head →
        Memory.read? t.storage a = Memory.read? s.storage a ∧ slotByte a t = slotByte a s

/-- R81 (1), R88: a PUT that finds the buffer full, as the producer sees it, answers FULL and changes nothing
else; in `lagging` mode also where slots are free that the view does not show. -/
def Obligations.PutRefusedWhenFull : Prop :=
  ∀ (s : State) (b : Byte), Ready .P s → (s.head + 1) % s.cfg.N = readTailView s →
    exec (.put .P b) s = .next (answered .P 0x01000000#32 s)

/-- R82: a GET that is not refused answers OK with the byte of slot `tail`, advances `tail`, and changes nothing
else. The byte is stated for every value an unwritten slot may hold. -/
def Obligations.GetTakesFromTail : Prop :=
  ∀ s : State, Ready .C s → s.tail < s.cfg.N → s.tail ≠ readHeadView s →
    exec (.get .C) s =
      .next (answered .C (0x000000#24 ++ slotByte s.tail s) { s with tail := (s.tail + 1) % s.cfg.N })

/-- R82 (1): a GET that finds the buffer empty, as the consumer sees it, answers EMPTY and changes nothing else. -/
def Obligations.GetRefusedWhenEmpty : Prop :=
  ∀ s : State, Ready .C s → s.tail = readHeadView s →
    exec (.get .C) s = .next (answered .C 0x02000000#32 s)

/-- The model's own choice (log entry 13): a PUT or GET that would reach a slot at or above `N`, which does not exist,
stops. No run reaches such a state. -/
def Obligations.SlotBeyondStorageStops : Prop :=
  ∀ (s : State) (b : Byte),
    (Ready .P s → s.cfg.N ≤ s.head → (s.head + 1) % s.cfg.N ≠ readTailView s →
      exec (.put .P b) s = .fault .noSuchSlot) ∧
    (Ready .C s → s.cfg.N ≤ s.tail → s.tail ≠ readHeadView s → exec (.get .C) s = .fault .noSuchSlot)

/-- R83: AVAIL answers OK with the count its port sees, an unsigned remainder below `N`, and changes nothing
else. -/
def Obligations.AvailAnswersTheSeenCount : Prop :=
  ∀ (s : State) (p : Port), Ready p s → s.cfg.wf → p = .P ∨ p = .C →
    ∃ n : Nat, n < s.cfg.N ∧
      (p = .P → (n : Int) = ((s.head : Int) - (readTailView s : Int)) % (s.cfg.N : Int)) ∧
      (p = .C → (n : Int) = ((readHeadView s : Int) - (s.tail : Int)) % (s.cfg.N : Int)) ∧
      exec (.avail p) s = .next (answered p (BitVec.ofNat 32 n) s)

/-- R84: FREE answers OK with `N - 1` less what AVAIL on its port would answer, and changes nothing else. -/
def Obligations.FreeAnswersTheRest : Prop :=
  ∀ (s : State) (p : Port), Ready p s → s.cfg.wf → p = .P ∨ p = .C →
    ∃ n f : Nat, n + f = s.cfg.N - 1 ∧
      exec (.avail p) s = .next (answered p (BitVec.ofNat 32 n) s) ∧
      exec (.free p) s = .next (answered p (BitVec.ofNat 32 f) s)

/-- R85: CLEAR with the producer quiescent sets both indices, and in `lagging` mode both views, to 0 and changes
nothing else; storage keeps its bytes. -/
def Obligations.ClearZeroesTheIndices : Prop :=
  ∀ s : State, s.faultCode = 0x00#8 → s.pEn = false →
    exec (.clear .C) s = .next (answered .C 0x00000000#32
      { s with
        head := 0
        tail := 0
        tailViewP := if s.cfg.viewMode = .lagging then 0 else s.tailViewP
        headViewC := if s.cfg.viewMode = .lagging then 0 else s.headViewC })

/-- R85, R143: CLEAR with the producer active faults with code 0x03 and changes nothing else. -/
def Obligations.ClearAgainstActiveProducerFaults : Prop :=
  ∀ s : State, s.faultCode = 0x00#8 → s.pEn = true →
    exec (.clear .C) s = .next (answered .C 0xFF000000#32 { s with faultCode := 0x03#8 })

/-! ### CRC commands -/

/-- R103: CRC.INIT, whatever `acc` and `acc_valid` held. -/
def Obligations.CrcInitStartsAtFF : Prop :=
  ∀ s : State, Ready .K s →
    exec (.crcInit .K) s = .next (answered .K 0x00000000#32 { s with acc := 0xFF#8, accValid := true })

/-- R104, R101: CRC.FEED updates `acc` by the shift steps written out, answers the new value, and changes nothing
else. -/
def Obligations.CrcFeedUpdatesTheAccumulator : Prop :=
  ∀ (s : State) (b : Byte), Ready .K s → s.accValid = true →
    ∃ c : Byte,
      c = (List.range 8).foldl (fun c _ => if c.getLsbD 7 then (c <<< 1) ^^^ 0x31#8 else c <<< 1) (s.acc ^^^ b) ∧
      exec (.crcFeed .K b) s = .next (answered .K (0x000000#24 ++ c) { s with acc := c })

/-- R105: CRC.READ answers `acc` and changes nothing else. -/
def Obligations.CrcReadAnswersTheAccumulator : Prop :=
  ∀ s : State, Ready .K s → s.accValid = true →
    exec (.crcRead .K) s = .next (answered .K (0x000000#24 ++ s.acc) s)

/-- R106: CRC.CHECK answers OK or MISMATCH, with `acc` in both cases, and changes nothing else. -/
def Obligations.CrcCheckCompares : Prop :=
  ∀ (s : State) (c : Byte), Ready .K s → s.accValid = true →
    (s.acc = c → exec (.crcCheck .K c) s = .next (answered .K (0x000000#24 ++ s.acc) s)) ∧
    (s.acc ≠ c → exec (.crcCheck .K c) s = .next (answered .K (0x030000#24 ++ s.acc) s))

/-- R31, R144: before a CRC.INIT the three other CRC commands fault with code 0x02 and change nothing else, so none
computes from an unknown accumulator; CRC.INIT sets `acc_valid`, RESET clears it, and no other action writes it. -/
def Obligations.CrcUseBeforeInitFaults : Prop :=
  (∀ (s : State) (b : Byte), Ready .K s → s.accValid = false →
    ∀ i, i = .crcFeed .K b ∨ i = .crcRead .K ∨ i = .crcCheck .K b →
      exec i s = .next (answered .K 0xFF000000#32 { s with faultCode := 0x02#8 })) ∧
  (∀ s : State, Ready .K s → ∃ t, exec (.crcInit .K) s = .next t ∧ t.accValid = true) ∧
  ∀ (a : Action) (s t : State), perform a s = .next t →
    (a = .reset → t.accValid = false) ∧
    (t.accValid ≠ s.accValid →
      a = .reset ∨ (a = .command .K ∧ fetch .K s = some 0x8000#16 ∧ t.accValid = true))

/-! ### Holds, faults and the order of tests -/

/-- R63, R66 (d): a command on a port that is not legal for it faults with code 0x01 and changes nothing else; stated of
the command with its port (log entry 14). -/
def Obligations.WrongPortFaults : Prop :=
  ∀ (i : Instr) (s : State), Ready i.port s → i.wellFormed = false →
    exec i s = .next (answered i.port 0xFF000000#32 { s with faultCode := 0x01#8 })

/-- R134: while `p_en == 0` no command on port P is a step: nothing changes and nothing is answered; RESUME and
RESET lift the hold; ports C and K are never held; a run in which P is held has not ended successfully. -/
def Obligations.QuiescentProducerIsHeld : Prop :=
  (∀ (s : State) (w : CmdWord), s.pEn = false →
    issue .P w s = .next s ∧ enabled (.command .P) s = false ∧
      (fetch .P s = some w → successfulEnd s = false ∧
        enabled (.command .P) (hostResume s) = true ∧ enabled (.command .P) (hostReset s) = true)) ∧
  ∀ (s : State) (p : Port) (w : CmdWord), p ≠ .P → fetch p s = some w → enabled (.command p) s = true

/-- R121: fault entry records the first cause, answers FAULT with data 0, advances the port's index, and changes
nothing else; and every command that answers FAULT has changed nothing else. -/
def Obligations.FaultsArePrecise : Prop :=
  (∀ (p : Port) (c : Cause) (s : State),
    raiseFault p c s = answered p 0xFF000000#32
      { s with faultCode := if s.faultCode = 0x00#8 then causeCode c else s.faultCode }) ∧
  ∀ (p : Port) (w : CmdWord) (s t : State) (r : RespWord),
    issue p w s = .next t → newResponse p s t = some r → r.extractLsb' 24 8 = 0xFF#8 →
      t = answered p 0xFF000000#32 { s with faultCode := t.faultCode } ∧
      (s.faultCode ≠ 0x00#8 → t.faultCode = s.faultCode) ∧
      (s.faultCode = 0x00#8 → t.faultCode = 0x01#8 ∨ t.faultCode = 0x02#8 ∨ t.faultCode = 0x03#8)

/-- R122: on a faulted block every word on every port answers FAULT and does nothing else, a command on P being
held first if the producer is quiescent; the synchroniser has no step; the host's three actions have their
effects; and the run has not ended successfully. -/
def Obligations.FaultedBlockAnswersFault : Prop :=
  ∀ s : State, s.faultCode ≠ 0x00#8 →
    (∀ (p : Port) (w : CmdWord), (p = .P → s.pEn = true) → issue p w s = .next (answered p 0xFF000000#32 s)) ∧
    (∀ w : CmdWord, s.pEn = false → issue .P w s = .next s) ∧
    enabled .syncT s = false ∧ enabled .syncH s = false ∧
    perform .quiesce s = .next { s with pEn := false } ∧
    perform .resume s = .next { s with pEn := true } ∧
    (∃ t, perform .reset s = .next t ∧ t.faultCode = 0x00#8) ∧
    successfulEnd s = false

/-- R124: the order of the tests within one command, and which code each fault leaves; the rule's example word 0x9100 is
illegal on port K, so it raises ILLEGAL_COMMAND there whatever `acc_valid` is. -/
def Obligations.TestsStandInOrder : Prop :=
  (∃ why, decode .K 0x9100#16 = .illegal why) ∧ ∀ (p : Port) (w : CmdWord) (s : State), Inv s →
    (p = .P ∧ s.pEn = false → issue p w s = .next s) ∧
    ((p = .P → s.pEn = true) → s.faultCode ≠ 0x00#8 → issue p w s = .next (answered p 0xFF000000#32 s)) ∧
    (Ready p s → ∀ why, decode p w = .illegal why →
      issue p w s = .next (answered p 0xFF000000#32 { s with faultCode := 0x01#8 })) ∧
    (Ready p s → ∀ i, decode p w = .cmd i →
      (i = .clear p ∧ s.pEn = true →
        issue p w s = .next (answered p 0xFF000000#32 { s with faultCode := 0x03#8 })) ∧
      ((∃ b, i = .crcFeed p b ∨ i = .crcRead p ∨ i = .crcCheck p b) ∧ s.accValid = false →
        issue p w s = .next (answered p 0xFF000000#32 { s with faultCode := 0x02#8 })) ∧
      ((i = .clear p → s.pEn = false) →
        ((∃ b, i = .crcFeed p b ∨ i = .crcRead p ∨ i = .crcCheck p b) → s.accValid = true) →
        ∃ t r, issue p w s = .next t ∧ newResponse p s t = some r ∧ t.faultCode = 0x00#8 ∧
          (r.extractLsb' 24 8).toNat ∈ [0x00, 0x01, 0x02, 0x03]))

/-- R34, R121, R122: `fault_code` is written only by RESET, with 0, and by a command that faults, which answers FAULT,
finds it 0 and leaves a code of rule R123. -/
def Obligations.FaultCodeIsSticky : Prop :=
  ∀ (a : Action) (s t : State), perform a s = .next t →
    (a = .reset → t.faultCode = 0x00#8) ∧
    (a ≠ .reset → s.faultCode ≠ 0x00#8 → t.faultCode = s.faultCode) ∧
    (t.faultCode ≠ s.faultCode → a = .reset ∨
      ∃ p, a = .command p ∧ s.faultCode = 0x00#8 ∧ newResponse p s t = some 0xFF000000#32 ∧
        (t.faultCode = 0x01#8 ∨ t.faultCode = 0x02#8 ∨ t.faultCode = 0x03#8))

/-- R120, R32, R64, R65: every command is held and changes nothing, or gives exactly one response on its own port
with the port's index advanced by 1; the response's status is one of the five and its reserved byte is 0; a
refusal changes nothing else. -/
def Obligations.EveryCommandHasOneOutcome : Prop :=
  ∀ (p : Port) (w : CmdWord) (s : State), Inv s →
    (p = .P ∧ s.pEn = false ∧ issue p w s = .next s) ∨
    ((p = .P → s.pEn = true) ∧
      ∃ t r, issue p w s = .next t ∧ t.pc = s.pc.set p (s.pc.get p + 1) ∧
        t.resp = s.resp.set p (s.resp.get p ++ [r]) ∧
        t.cmds = s.cmds ∧ t.schedule = s.schedule ∧ t.cfg = s.cfg ∧ t.pEn = s.pEn ∧
        (r.extractLsb' 24 8).toNat ∈ [0x00, 0x01, 0x02, 0x03, 0xFF] ∧ r.extractLsb' 16 8 = 0#8 ∧
        ((r.extractLsb' 24 8).toNat ∈ [0x01, 0x02, 0x03] → t = answered p r s) ∧
        ((r.extractLsb' 24 8).toNat ∈ [0x01, 0x02, 0xFF] → r.extractLsb' 0 16 = 0#16))

/-! ### Invariants -/

/-- R36: a block of every legal size and either view mode is in a legal state at power-up. That the reset state is the
block of 256 slots with lagging views is the model's choice (log entry 1). -/
def Obligations.PowerUpIsLegal : Prop :=
  (∀ c : Params, c.wf → Inv (State.powerUp c)) ∧ State.reset = State.powerUp ⟨256, .lagging⟩ ∧ Inv State.reset

/-- R28, R35: every step from a legal state leads to a legal state. -/
def Obligations.StepKeepsTheInvariant : Prop :=
  ∀ s t : State, Inv s → step s = .next t → Inv t

/-- R28: what the view invariants say of the two ports. -/
def Obligations.ViewsBoundOccupancy : Prop :=
  ∀ s : State, Inv s →
    (∃ n, availOn .P s = some n ∧ n = availableTrue s + lagTail s) ∧
    (∃ n, availOn .C s = some n ∧ n + lagHead s = availableTrue s) ∧
    (s.cfg.viewMode = .coherent → lagTail s = 0 ∧ lagHead s = 0) ∧
    (fullSeen s = false → ∀ j, j < availableTrue s → slotAt s j ≠ s.head) ∧
    (emptySeen s = false → 0 < availableTrue s ∧ slotAt s 0 = s.tail)

/-- R86: the counts the two ports answer bound the true ones, and none overflows the 16-bit field. -/
def Obligations.SeenCountsBracketTheTrueOnes : Prop :=
  ∀ s : State, Inv s →
    ∃ aP aC fP fC : Nat, availOn .P s = some aP ∧ availOn .C s = some aC ∧ freeOn .P s = some fP ∧
      freeOn .C s = some fC ∧ aC ≤ availableTrue s ∧ availableTrue s ≤ aP ∧ fP ≤ freeTrue s ∧ freeTrue s ≤ fC ∧
      aP ≤ s.cfg.N - 1 ∧ fC ≤ s.cfg.N - 1 ∧ s.cfg.N - 1 ≤ 65535 ∧ nextIndex s.head s.cfg.N < s.cfg.N

/-- R83 (2), (3), R84 (2), (3): the counts say exactly when PUT and GET would be refused. -/
def Obligations.CountsForetellRefusals : Prop :=
  ∀ (s : State) (b : Byte), Inv s → Ready .P s →
    (exec (.put .P b) s = .next (answered .P 0x01000000#32 s) ↔ availOn .P s = some (s.cfg.N - 1)) ∧
    (exec (.put .P b) s = .next (answered .P 0x01000000#32 s) ↔ freeOn .P s = some 0) ∧
    (exec (.get .C) s = .next (answered .C 0x02000000#32 s) ↔ availOn .C s = some 0)

/-- R4, R22, R35: the indices and views fit in `IDX_W` bits, and no smaller width would hold every index. -/
def Obligations.IndexWidthIsLeast : Prop :=
  ∀ s : State, Inv s →
    s.head < 2 ^ s.cfg.idxW ∧ s.tail < 2 ^ s.cfg.idxW ∧ s.tailViewP < 2 ^ s.cfg.idxW ∧
      s.headViewC < 2 ^ s.cfg.idxW ∧ ∀ k, s.cfg.N ≤ 2 ^ k → s.cfg.idxW ≤ max 1 k

/-- R82 (4), R28, I1: a GET that is not refused returns a byte a PUT wrote, so what an unwritten slot holds is never
answered. -/
def Obligations.GetReadsAWrittenSlot : Prop :=
  ∀ s : State, Inv s → Ready .C s → s.tail ≠ readHeadView s →
    ∃ b, Memory.read? s.storage s.tail = some b ∧
      exec (.get .C) s = .next (answered .C (0x000000#24 ++ b) { s with tail := (s.tail + 1) % s.cfg.N })

/-! ### The queue -/

/-- R49, R41, R82: what each action does to the queued bytes: a PUT answered OK adds its byte at the end, a GET answered
OK takes the first and answers it, a CLEAR answered OK and RESET empty the queue, and every other action leaves it. -/
def Obligations.OnlyPutAndGetMoveBytes : Prop :=
  ∀ (a : Action) (s t : State), Inv s → perform a s = .next t →
    (∀ b, a = .command .P → fetch .P s = some (encode (.put .P b)) → newResponse .P s t = some 0x00000000#32 →
      queue t = queue s ++ [b]) ∧
    (∀ r, a = .command .C → fetch .C s = some 0x2000#16 → newResponse .C s t = some r →
      r.extractLsb' 24 8 = 0x00#8 → ∃ b, r = 0x000000#24 ++ b ∧ queue s = b :: queue t) ∧
    (a = .command .C → fetch .C s = some 0x5000#16 → newResponse .C s t = some 0x00000000#32 → queue t = []) ∧
    (a = .reset → queue t = []) ∧
    (¬ (∃ b, a = .command .P ∧ fetch .P s = some (encode (.put .P b)) ∧
        newResponse .P s t = some 0x00000000#32) →
      ¬ (∃ r, a = .command .C ∧ fetch .C s = some 0x2000#16 ∧ newResponse .C s t = some r ∧
        r.extractLsb' 24 8 = 0x00#8) →
      ¬ (a = .command .C ∧ fetch .C s = some 0x5000#16 ∧ newResponse .C s t = some 0x00000000#32) →
      a ≠ .reset → queue t = queue s)

/-- R47, R49: first in, first out, on every interleaving. From a state with nothing queued, the bytes of the
successful PUTs since the last CLEAR or RESET are those of the successful GETs, in order, followed by those still
queued. -/
def Obligations.BytesLeaveInOrder : Prop :=
  ∀ (s : State) (as : List Action), Inv s → queue s = [] →
    (observe as s ⟨[], []⟩).2.puts =
      (observe as s ⟨[], []⟩).2.gets ++ queue (observe as s ⟨[], []⟩).1

/-- R87: (a) from reset or CLEAR, on every interleaving: once `N - 1` PUTs have succeeded since then and no GET has, the
next PUT is refused and the contents stay; and `N - 1` PUTs do succeed. (b) Once drained to equal indices GET is
refused, whatever the views showed before. -/
def Obligations.FullAndEmptyAreToldApart : Prop :=
  (∀ (s : State) (as : List Action), Inv s → s.head = 0 → s.tail = 0 → s.tailViewP = 0 →
    (observe as s ⟨[], []⟩).2.gets = [] → (observe as s ⟨[], []⟩).2.puts.length = s.cfg.N - 1 →
    ∃ t, (observe as s ⟨[], []⟩).1 = t ∧ queue t = (observe as s ⟨[], []⟩).2.puts ∧
      (Ready .P t → ∀ b, exec (.put .P b) t = .next (answered .P 0x01000000#32 t))) ∧
  (∀ (s : State) (bs : List Byte), Inv s → Ready .P s → s.head = 0 → s.tail = 0 → s.tailViewP = 0 →
    bs.length = s.cfg.N - 1 →
    ∃ t, runCommands (bs.map (.put .P)) s = .next t ∧ queue t = bs ∧
      t.resp.onP = s.resp.onP ++ List.replicate (s.cfg.N - 1) 0x00000000#32 ∧
      ∀ b, exec (.put .P b) t = .next (answered .P 0x01000000#32 t)) ∧
  ∀ s : State, Inv s → Ready .C s → s.head = s.tail →
    exec (.get .C) s = .next (answered .C 0x02000000#32 s)

/-- R142 (4), R85: QUIESCE, CLEAR, RESUME empties the buffer while the system runs. -/
def Obligations.ClearProtocolEmptiesTheBuffer : Prop :=
  ∀ s : State, Inv s → s.faultCode = 0x00#8 → fetch .C s = some 0x5000#16 →
    ∃ t, runActions [.quiesce, .command .C, .resume] s = .next t ∧ queue t = [] ∧ t.head = 0 ∧ t.tail = 0 ∧
      t.pEn = true ∧ t.faultCode = 0x00#8 ∧ t.storage = s.storage ∧ t.acc = s.acc ∧ t.accValid = s.accValid ∧
      newResponse .C s t = some 0x00000000#32 ∧ availOn .P t = some 0 ∧ availOn .C t = some 0

/-! ### Ownership and independence -/

/-- R25: each port writes only its own index; CLEAR with the producer quiescent is the one exception; only the
synchroniser, CLEAR and RESET write the views; only the host writes `p_en`. -/
def Obligations.EachIndexHasOneWriter : Prop :=
  ∀ (a : Action) (s t : State), perform a s = .next t →
    (t.head ≠ s.head → a = .reset ∨ a = .command .P ∨
      (a = .command .C ∧ fetch .C s = some 0x5000#16 ∧ s.pEn = false ∧ t.head = 0)) ∧
    (t.tail ≠ s.tail → a = .reset ∨ a = .command .C) ∧
    (t.tailViewP ≠ s.tailViewP → s.cfg.viewMode = .lagging ∧
      ((a = .syncT ∧ t.tailViewP = s.tail) ∨ (t.tailViewP = 0 ∧ (a = .reset ∨
        (a = .command .C ∧ fetch .C s = some 0x5000#16 ∧ s.pEn = false))))) ∧
    (t.headViewC ≠ s.headViewC → s.cfg.viewMode = .lagging ∧
      ((a = .syncH ∧ t.headViewC = s.head) ∨ (t.headViewC = 0 ∧ (a = .reset ∨
        (a = .command .C ∧ fetch .C s = some 0x5000#16 ∧ s.pEn = false))))) ∧
    (t.pEn ≠ s.pEn → a = .reset ∨ a = .quiesce ∨ a = .resume)

/-- R25, R26: in `lagging` mode a port sees the other port's index only through its view: changing the live index
behind the view changes no answer. -/
def Obligations.PortsSeeOnlyTheirViews : Prop :=
  ∀ (s t : State) (w : CmdWord) (x : Nat), s.cfg.viewMode = .lagging →
    (issue .P w s = .next t → issue .P w { s with tail := x } = .next { t with tail := x }) ∧
    (w ≠ 0x5000#16 → issue .C w s = .next t → issue .C w { s with head := x } = .next { t with head := x })

/-- R100: the two units are independent: a port P or port C command leaves `acc` and `acc_valid` alone and does the
same whatever they hold; a port K command leaves the ring buffer, `p_en` included (R20), alone and does the same
whatever it holds. -/
def Obligations.UnitsAreIndependent : Prop :=
  (∀ (p : Port) (w : CmdWord) (s t : State) (c : Byte) (v : Bool), p ≠ .K → issue p w s = .next t →
    t.acc = s.acc ∧ t.accValid = s.accValid ∧
      issue p w { s with acc := c, accValid := v } = .next { t with acc := c, accValid := v }) ∧
  ∀ (w : CmdWord) (s t : State) (m : Memory) (h l hv tv : Nat) (e : Bool), issue .K w s = .next t →
    t.storage = s.storage ∧ t.head = s.head ∧ t.tail = s.tail ∧ t.tailViewP = s.tailViewP ∧
      t.headViewC = s.headViewC ∧ t.pEn = s.pEn ∧
      issue .K w { s with storage := m, head := h, tail := l, tailViewP := tv, headViewC := hv, pEn := e } =
        .next { t with storage := m, head := h, tail := l, tailViewP := tv, headViewC := hv, pEn := e }

/-- R41: AVAIL, FREE and CRC.READ have no side effect, and repeated with no step between give the same response,
whatever the state. -/
def Obligations.QueriesRepeat : Prop :=
  ∀ (i : Instr) (p : Port) (s t : State), i = .avail p ∨ i = .free p ∨ i = .crcRead p → exec i s = .next t →
    (t = s ∨ ∃ r, t = answered p r { s with faultCode := t.faultCode }) ∧
    ∃ u, exec i t = .next u ∧ newResponse p t u = newResponse p s t

/-! ### The synchroniser and the two view modes -/

/-- R27: when each synchroniser step is enabled and what it copies; in `coherent` mode there is none. That an action
which is not enabled changes nothing is the model's choice (log entry 4). -/
def Obligations.SynchroniserCopiesWholeIndices : Prop :=
  ∀ s : State,
    (enabled .syncT s = true ↔ s.cfg.viewMode = .lagging ∧ s.tailViewP ≠ s.tail ∧ s.faultCode = 0x00#8) ∧
    (enabled .syncH s = true ↔ s.cfg.viewMode = .lagging ∧ s.headViewC ≠ s.head ∧ s.faultCode = 0x00#8) ∧
    (enabled .syncT s = true → perform .syncT s = .next { s with tailViewP := s.tail }) ∧
    (enabled .syncH s = true → perform .syncH s = .next { s with headViewC := s.head }) ∧
    (enabled .syncT s = false → perform .syncT s = .next s) ∧
    (enabled .syncH s = false → perform .syncH s = .next s)

/-- R26, D5: `lagging` admits every run that `coherent` admits: each action of a coherent block is matched by the
same action and the two synchroniser steps of the lagging block with current views. -/
def Obligations.LaggingSimulatesCoherent : Prop :=
  ∀ (a : Action) (s t : State), s.cfg.viewMode = .coherent → perform a s = .next t →
    runActions [a, .syncT, .syncH] (asLagging s) = .next (asLagging t)

/-- R149, R51 (d): under weak fairness of the two synchroniser steps, once `tail` (or `head`) stops changing on an
unfaulted run, its view equals it for ever after finitely many steps. -/
def Obligations.ViewsCatchUp : Prop :=
  ∀ (sched : Nat → Action) (s : State), Inv s → s.cfg.viewMode = .lagging →
    (WeaklyFair .syncT sched s → ∀ k,
      (∀ m, k ≤ m → (trajectory sched s m).tail = (trajectory sched s k).tail ∧
        (trajectory sched s m).faultCode = 0x00#8) →
      ∃ n, k ≤ n ∧ ∀ m, n ≤ m → (trajectory sched s m).tailViewP = (trajectory sched s m).tail) ∧
    (WeaklyFair .syncH sched s → ∀ k,
      (∀ m, k ≤ m → (trajectory sched s m).head = (trajectory sched s k).head ∧
        (trajectory sched s m).faultCode = 0x00#8) →
      ∃ n, k ≤ n ∧ ∀ m, n ≤ m → (trajectory sched s m).headViewC = (trajectory sched s m).head)

/-! ### The CRC function, groups and frames -/

/-- R2, R102: the source's conformance vector and the check value of the parameter set. -/
def Obligations.CrcConformanceVectors : Prop :=
  crc8 [0xBE#8, 0xEF#8] = 0x92#8 ∧
    crc8 [0x31#8, 0x32#8, 0x33#8, 0x34#8, 0x35#8, 0x36#8, 0x37#8, 0x38#8, 0x39#8] = 0xF7#8 ∧ crc8 [] = 0xFF#8

/-- R112: the byte update is linear over GF(2); `T` is the XOR of the eight single-bit images over the set bits; and
the CRC of sequences of one length is affine. -/
def Obligations.CrcIsAffine : Prop :=
  (∀ c₁ c₂ b₁ b₂ : Byte, crc8Update (c₁ ^^^ c₂) (b₁ ^^^ b₂) = crc8Update c₁ b₁ ^^^ crc8Update c₂ b₂) ∧
  (∀ x y : Byte, crcT (x ^^^ y) = crcT x ^^^ crcT y) ∧
  (∀ x : Byte, crcT x =
    ([(0, 0x31#8), (1, 0x62#8), (2, 0xC4#8), (3, 0xB9#8), (4, 0x43#8), (5, 0x86#8), (6, 0x3D#8),
      (7, 0x7A#8)] : List (Nat × Byte)).foldl (fun r e => if x.getLsbD e.1 then r ^^^ e.2 else r) 0#8) ∧
  ∀ d e : List Byte, d.length = e.length →
    crc8 (d.zipWith (· ^^^ ·) e) ^^^ crc8 (List.replicate d.length 0#8) = crc8 d ^^^ crc8 e

/-- R110: the residue of a sequence followed by a byte is 0 exactly when the byte is the sequence's CRC. -/
def Obligations.ResidueIsZeroOnlyForTheCrc : Prop :=
  ∀ (d : List Byte) (c : Byte), crc8Update (crc8 d) c = 0x00#8 ↔ c = crc8 d

/-- R111: a valid group with any one of its 24 bits inverted is invalid. The group is taken as 24 bits, its first
byte highest. -/
def Obligations.SingleBitErrorsAreDetected : Prop :=
  ∀ (v : BitVec 24) (k : Nat), k < 24 →
    groupValid ⟨v.extractLsb' 16 8, v.extractLsb' 8 8, v.extractLsb' 0 8⟩ = true →
    groupValid ⟨(v ^^^ (1#24 <<< k)).extractLsb' 16 8, (v ^^^ (1#24 <<< k)).extractLsb' 8 8,
      (v ^^^ (1#24 <<< k)).extractLsb' 0 8⟩ = false

/-- R69, R102, R105 (3): CRCOF computes the CRC of its bytes, of any number, and answers it last. -/
def Obligations.CrcOfComputesTheCrc : Prop :=
  ∀ (s : State) (d : List Byte), Ready .K s →
    ∃ t, runCommands (crcOf d) s = .next t ∧
      t = { s with acc := crc8 d, accValid := true, pc := t.pc, resp := t.resp } ∧
      t.pc = s.pc.set .K (s.pc.get .K + d.length + 2) ∧
      t.resp.onK = s.resp.onK ++ [0x00000000#32] ++
        (List.range d.length).map (fun k => 0x000000#24 ++ crc8 (d.take (k + 1))) ++ [0x000000#24 ++ crc8 d] ∧
      t.resp.onP = s.resp.onP ∧ t.resp.onC = s.resp.onC

/-- R107, R43: a group is valid exactly when its CRC byte is the CRC of its two data bytes, and GROUPCHECK's last
response is OK exactly when the group is valid, and MISMATCH otherwise. -/
def Obligations.GroupCheckDecidesValidity : Prop :=
  ∀ (s : State) (g : Group), Ready .K s →
    (groupValid g = true ↔ crc8 [g.msb, g.lsb] = g.crc) ∧
    ∃ t r, runCommands (groupCheck g) s = .next t ∧
      t = { s with acc := crc8 [g.msb, g.lsb], accValid := true, pc := t.pc, resp := t.resp } ∧
      t.resp.onK.getLast? = some r ∧ t.resp.onK.length = s.resp.onK.length + 4 ∧
      (r.extractLsb' 24 8 = 0x00#8 ↔ groupValid g = true) ∧
      (r.extractLsb' 24 8 = 0x03#8 ↔ groupValid g = false)

/-- R108: a frame is valid exactly when both its groups are, and FRAMECHECK's two CHECK responses, its fourth and its
eighth, are both OK exactly when the frame is valid, each from its own CRC.INIT. -/
def Obligations.FrameCheckDecidesValidity : Prop :=
  ∀ (s : State) (f : Frame), Ready .K s →
    (frameValid f = true ↔
      crc8 [f.temperature.msb, f.temperature.lsb] = f.temperature.crc ∧
      crc8 [f.humidity.msb, f.humidity.lsb] = f.humidity.crc) ∧
    ∃ (t : State) (rs : List RespWord) (r₁ r₂ : RespWord), runCommands (frameCheck f) s = .next t ∧
      t.resp.onK = s.resp.onK ++ rs ∧ rs.length = 8 ∧ rs[3]? = some r₁ ∧ rs[7]? = some r₂ ∧
      (r₁.extractLsb' 24 8 = 0x00#8 ↔ groupValid f.temperature = true) ∧
      (r₂.extractLsb' 24 8 = 0x00#8 ↔ groupValid f.humidity = true) ∧
      (r₁.extractLsb' 24 8 = 0x00#8 ∧ r₂.extractLsb' 24 8 = 0x00#8 ↔ frameValid f = true)

/-- R145, R106 (1): a second group fed with no CRC.INIT of its own is compared against the CRC of both groups' data
bytes. The rule's "five bytes" is four by R104 and R106: log entry 19. -/
def Obligations.AccumulatorCarriesOver : Prop :=
  ∀ (s : State) (g h : Group), Ready .K s →
    ∃ t, runCommands (groupCheck g ++ [.crcFeed .K h.msb, .crcFeed .K h.lsb, .crcCheck .K h.crc]) s = .next t ∧
      t.acc = crc8 [g.msb, g.lsb, h.msb, h.lsb] ∧
      (t.resp.onK.getLast? = some (0x000000#24 ++ t.acc) ↔ h.crc = crc8 [g.msb, g.lsb, h.msb, h.lsb])

/-! ### Host actions, reset and the end of a run -/

/-- R140, R132: RESET, in every state: each state element at its value, the command lists, the indices of the
lists (log entry 11) and the responses unchanged. The unspecified bytes are not constrained: no slot is listed (log
entry 8). -/
def Obligations.ResetSetsEveryElement : Prop :=
  ∀ s : State, ∃ t, perform .reset s = .next t ∧
    t.head = 0 ∧ t.tail = 0 ∧ t.pEn = true ∧ t.accValid = false ∧ t.faultCode = 0x00#8 ∧
    (s.cfg.viewMode = .lagging → t.tailViewP = 0 ∧ t.headViewC = 0) ∧
    readTailView t = 0 ∧ readHeadView t = 0 ∧ (∀ a, Memory.read? t.storage a = none) ∧
    t.pc = s.pc ∧ t.cmds = s.cmds ∧ t.resp = s.resp ∧ t.schedule = s.schedule ∧ t.cfg = s.cfg

/-- R141: after RESET the buffer is empty on both ports, the producer is enabled, and every CRC command but
CRC.INIT faults. -/
def Obligations.AfterResetBufferIsEmpty : Prop :=
  ∀ (s t : State), s.cfg.wf → perform .reset s = .next t →
    (∀ p, p = .P ∨ p = .C →
      exec (.avail p) t = .next (answered p 0x00000000#32 t) ∧
      exec (.free p) t = .next (answered p (BitVec.ofNat 32 (s.cfg.N - 1)) t)) ∧
    exec (.get .C) t = .next (answered .C 0x02000000#32 t) ∧
    (∀ b, ∃ u, exec (.put .P b) t = .next u ∧ newResponse .P t u = some 0x00000000#32) ∧
    (∀ i b, i = .crcFeed .K b ∨ i = .crcRead .K ∨ i = .crcCheck .K b →
      exec i t = .next (answered .K 0xFF000000#32 { t with faultCode := 0x02#8 })) ∧
    exec (.crcInit .K) t = .next (answered .K 0x00000000#32 { t with acc := 0xFF#8, accValid := true })

/-- R132: QUIESCE and RESUME write `p_en` and nothing else, in every state. -/
def Obligations.HostWritesOnlyTheEnable : Prop :=
  ∀ s : State, perform .quiesce s = .next { s with pEn := false } ∧ perform .resume s = .next { s with pEn := true } ∧
    enabled .quiesce s = true ∧ enabled .resume s = true ∧ enabled .reset s = true

/-- R150: a run has ended successfully exactly when (a) to (d) hold; then no agent can step; and a state where no
agent can step is a successful end or a failed one, and not both. The host, which can always act (R132), is not
counted: log entry 23. That an action which cannot be taken at such an end changes nothing is the model's choice (log
entry 4). -/
def Obligations.SuccessfulEndsAreFinal : Prop :=
  ∀ s : State,
    (successfulEnd s = true ↔
      (s.pc.onP = s.cmds.onP.length ∧ s.pc.onC = s.cmds.onC.length ∧ s.pc.onK = s.cmds.onK.length) ∧
      s.faultCode = 0x00#8 ∧ ¬ (s.pEn = false ∧ ∃ w, fetch .P s = some w) ∧
      (s.cfg.viewMode = .lagging → s.tailViewP = s.tail ∧ s.headViewC = s.head)) ∧
    (successfulEnd s = true → agentCanStep s = false ∧ ∀ a, a ∈ agentActions → perform a s = .next s) ∧
    (agentCanStep s = false → (failedEnd s = true ↔ successfulEnd s = false)) ∧
    (agentCanStep s = true → failedEnd s = false)
end

