-- ==== Sys2Proof/Laws/Index.lean ====
section
/-! SUPPORT. Index arithmetic: `mod N` of rule R7 by cases, for indices below `N`. -/

namespace Sys2Proof.Machine

open Sys2Proof

/-- `modN` is the mathematical remainder (R7). -/
theorem modN_cast (x : Int) (n : Nat) (h : 0 < n) : ((modN x n : Nat) : Int) = x % (n : Int) := by
  unfold modN
  have := Int.emod_nonneg x (by omega : (n : Int) ≠ 0)
  omega

theorem modN_lt (x : Int) (n : Nat) (h : 0 < n) : modN x n < n := by
  have := modN_cast x n h
  have := Int.emod_lt_of_pos x (by omega : (0 : Int) < n)
  omega

theorem modN_self (x n : Nat) : modN ((x : Int) - x) n = 0 := by simp [modN]

/-- The difference of two indices, `mod N`: the distance from the second up to the first. Stated as a disjunction, so
that omega can use it. -/
theorem modN_sub (h t n : Nat) (hh : h < n) (ht : t < n) :
    modN ((h : Int) - (t : Int)) n < n ∧
      (t + modN ((h : Int) - (t : Int)) n = h ∨ t + modN ((h : Int) - (t : Int)) n = h + n) := by
  refine ⟨modN_lt _ _ (by omega), ?_⟩
  unfold modN
  by_cases hle : t ≤ h
  · have : ((h : Int) - t) % (n : Int) = (h : Int) - t := Int.emod_eq_of_lt (by omega) (by omega)
    omega
  · have : ((h : Int) - t) % (n : Int) = (h : Int) - t + n := by
      rw [← Int.add_emod_right, Int.emod_eq_of_lt (by omega) (by omega)]
    omega

/-- The increment of an index, `mod N`, by cases. -/
theorem nextIndex_cases (i n : Nat) (h : i < n) :
    (i + 1 = n ∧ nextIndex i n = 0) ∨ (i + 1 < n ∧ nextIndex i n = i + 1) := by
  unfold nextIndex
  by_cases he : i + 1 = n
  · exact .inl ⟨he, by rw [he, Nat.mod_self]⟩
  · exact .inr ⟨by omega, Nat.mod_eq_of_lt (by omega)⟩

theorem nextIndex_lt (i n : Nat) (h : 0 < n) : nextIndex i n < n := Nat.mod_lt _ h

/-- The slot of the `j`-th queued byte, by cases. -/
theorem slotAt_cases (s : State) (j : Nat) (ht : s.tail < s.cfg.N) (hj : j < s.cfg.N) :
    slotAt s j < s.cfg.N ∧ (s.tail + j = slotAt s j ∨ s.tail + j = slotAt s j + s.cfg.N) := by
  refine ⟨Nat.mod_lt _ (by omega), ?_⟩
  unfold slotAt
  by_cases h : s.tail + j < s.cfg.N
  · exact .inl (Nat.mod_eq_of_lt h).symm
  · have : (s.tail + j) % s.cfg.N = s.tail + j - s.cfg.N := by
      rw [Nat.mod_eq_sub_mod (by omega), Nat.mod_eq_of_lt (by omega)]
    omega

/-! ### The occupancy of a state whose indices are legal -/

theorem readTailView_lt (s : State) (h : RegistersLegal s) : readTailView s < s.cfg.N := by
  unfold readTailView
  split
  · exact h.2.2.1
  · exact h.2.1

theorem readHeadView_lt (s : State) (h : RegistersLegal s) : readHeadView s < s.cfg.N := by
  unfold readHeadView
  split
  · exact h.2.2.2.1
  · exact h.1

/-- `available_true`, `lag_t` and `lag_h` as distances on the ring. -/
theorem occupancy (s : State) (h : RegistersLegal s) :
    (availableTrue s < s.cfg.N ∧
      (s.tail + availableTrue s = s.head ∨ s.tail + availableTrue s = s.head + s.cfg.N)) ∧
    (lagTail s < s.cfg.N ∧
      (readTailView s + lagTail s = s.tail ∨ readTailView s + lagTail s = s.tail + s.cfg.N)) ∧
    (lagHead s < s.cfg.N ∧
      (readHeadView s + lagHead s = s.head ∨ readHeadView s + lagHead s = s.head + s.cfg.N)) :=
  ⟨modN_sub _ _ _ h.1 h.2.1, modN_sub _ _ _ h.2.1 (readTailView_lt s h), modN_sub _ _ _ h.1 (readHeadView_lt s h)⟩

end Sys2Proof.Machine
end

