-- ==== Sys2Proof/Laws/Memory.lean ====
section
/-! SUPPORT. Storage: read after write, and the canonical form is kept. -/

namespace Sys2Proof.Machine

open Sys2Proof

/-- The read laws of a write: the written slot reads as written, every other slot as before. -/
theorem Memory.read?_write (m : Memory) (a b : Nat) (v : Byte) :
    Memory.read? (Memory.write m a v) b = if b = a then some v else Memory.read? m b := by
  induction m with
  | nil => rfl
  | cons e m ih =>
    obtain ⟨c, w⟩ := e
    unfold Memory.write
    by_cases h₁ : a < c
    · rw [if_pos h₁]; rfl
    · rw [if_neg h₁]
      by_cases h₂ : a = c
      · subst h₂
        rw [if_pos rfl]
        simp only [Memory.read?]
        split_ifs <;> rfl
      · rw [if_neg h₂]
        simp only [Memory.read?, ih]
        by_cases hb : b = c
        · rw [if_pos hb, if_neg (by omega), if_pos hb]
        · rw [if_neg hb, if_neg hb]

theorem Memory.above_trans (m : Memory) (a b : Nat) (h : a ≤ b) :
    Memory.above b m = true → Memory.above a m = true := by
  induction m with
  | nil => simp [Memory.above]
  | cons e m ih =>
    simp only [Memory.above, Bool.and_eq_true, decide_eq_true_eq]
    exact fun ⟨h₁, h₂⟩ => ⟨by omega, ih h₂⟩

theorem Memory.above_write (m : Memory) (a b : Nat) (v : Byte) (hab : b < a) :
    Memory.above b m = true → Memory.above b (Memory.write m a v) = true := by
  induction m with
  | nil => simp [Memory.above, Memory.write, hab]
  | cons e m ih =>
    obtain ⟨c, w⟩ := e
    simp only [Memory.write]
    split_ifs <;> simp only [Memory.above, Bool.and_eq_true, decide_eq_true_eq] <;> intro h
    · exact ⟨hab, h.1, h.2⟩
    · exact ⟨hab, h.2⟩
    · exact ⟨h.1, ih h.2⟩

/-- A write keeps the slots strictly rising. -/
theorem Memory.write_wf (m : Memory) (a : Nat) (v : Byte) :
    Memory.wf m = true → Memory.wf (Memory.write m a v) = true := by
  induction m with
  | nil => simp [Memory.wf, Memory.write, Memory.above]
  | cons e m ih =>
    obtain ⟨c, w⟩ := e
    simp only [Memory.write]
    split_ifs with h₁ h₂ <;> simp only [Memory.wf, Memory.above, Bool.and_eq_true, decide_eq_true_eq] <;> intro h
    · exact ⟨⟨h₁, Memory.above_trans m a c (by omega) h.1⟩, h.1, h.2⟩
    · exact h₂ ▸ h
    · exact ⟨Memory.above_write m a c v (by omega) h.1, ih h.2⟩

/-- A write below `n` keeps every slot below `n`. -/
theorem Memory.write_below (m : Memory) (n a : Nat) (v : Byte) (ha : a < n) :
    Memory.below n m = true → Memory.below n (Memory.write m a v) = true := by
  induction m with
  | nil => simp [Memory.below, Memory.write, ha]
  | cons e m ih =>
    obtain ⟨c, w⟩ := e
    simp only [Memory.write]
    split_ifs <;> simp only [Memory.below, Bool.and_eq_true, decide_eq_true_eq] <;> intro h
    · exact ⟨ha, h.1, h.2⟩
    · exact ⟨ha, h.2⟩
    · exact ⟨h.1, ih h.2⟩

/-- The reset state's storage is in its canonical form. -/
theorem reset_storage_wf : Memory.wf State.reset.storage = true := by decide

/-- The only operation that writes storage keeps its canonical form, and every other field. -/
theorem memWrite_spec (i : Nat) (v : Byte) (s t : State) (h : memWrite i v s = some t) :
    i < s.cfg.N ∧ t = { s with storage := Memory.write s.storage i v } ∧
      (Memory.wf s.storage = true → Memory.wf t.storage = true) ∧
      ∀ a, Memory.read? t.storage a = if a = i then some v else Memory.read? s.storage a := by
  unfold memWrite at h
  split_ifs at h with hi
  cases h
  exact ⟨hi, rfl, Memory.write_wf _ _ _, fun a => Memory.read?_write _ _ _ _⟩

/-- A storage read answers exactly for the slots that exist. -/
theorem memRead_spec (i : Nat) (s : State) (b : Byte) :
    memRead i s = some b ↔ i < s.cfg.N ∧ b = slotByte i s := by
  unfold memRead
  split_ifs with h <;> simp [h, eq_comm]

/-- What a slot holds after another state's storage was written at `i`. -/
theorem slotByte_write (a i : Nat) (v : Byte) (s : State) :
    slotByte a { s with storage := Memory.write s.storage i v } = if a = i then v else slotByte a s := by
  unfold slotByte
  simp only [Memory.read?_write]
  split_ifs <;> rfl

end Sys2Proof.Machine
end

