-- ==== Sys2Proof/Laws/State.lean ====
section
/-! SUPPORT. The small lemmas of the state updates: one per field and named update, and the two laws of `PerPort`. -/

namespace Sys2Proof.Machine

open Sys2Proof

/-! ### One value per port -/

@[simp] theorem PerPort.get_set_same {α : Type} (x : PerPort α) (p : Port) (v : α) : (x.set p v).get p = v := by
  cases p <;> rfl

theorem PerPort.get_set {α : Type} (x : PerPort α) (p q : Port) (v : α) :
    (x.set p v).get q = if q = p then v else x.get q := by
  cases p <;> cases q <;> rfl

@[simp] theorem PerPort.set_set {α : Type} (x : PerPort α) (p : Port) (u v : α) :
    (x.set p u).set p v = x.set p v := by
  cases p <;> rfl

@[simp] theorem PerPort.set_get {α : Type} (x : PerPort α) (p : Port) : x.set p (x.get p) = x := by
  cases p <;> rfl

/-! ### The fields after `answered` -/

@[simp] theorem answered_cfg (p : Port) (r : RespWord) (s : State) : (answered p r s).cfg = s.cfg := rfl
@[simp] theorem answered_storage (p : Port) (r : RespWord) (s : State) : (answered p r s).storage = s.storage := rfl
@[simp] theorem answered_head (p : Port) (r : RespWord) (s : State) : (answered p r s).head = s.head := rfl
@[simp] theorem answered_tail (p : Port) (r : RespWord) (s : State) : (answered p r s).tail = s.tail := rfl
@[simp] theorem answered_tailViewP (p : Port) (r : RespWord) (s : State) :
    (answered p r s).tailViewP = s.tailViewP := rfl
@[simp] theorem answered_headViewC (p : Port) (r : RespWord) (s : State) :
    (answered p r s).headViewC = s.headViewC := rfl
@[simp] theorem answered_pEn (p : Port) (r : RespWord) (s : State) : (answered p r s).pEn = s.pEn := rfl
@[simp] theorem answered_acc (p : Port) (r : RespWord) (s : State) : (answered p r s).acc = s.acc := rfl
@[simp] theorem answered_accValid (p : Port) (r : RespWord) (s : State) :
    (answered p r s).accValid = s.accValid := rfl
@[simp] theorem answered_faultCode (p : Port) (r : RespWord) (s : State) :
    (answered p r s).faultCode = s.faultCode := rfl
@[simp] theorem answered_pc (p : Port) (r : RespWord) (s : State) :
    (answered p r s).pc = s.pc.set p (s.pc.get p + 1) := rfl
@[simp] theorem answered_cmds (p : Port) (r : RespWord) (s : State) : (answered p r s).cmds = s.cmds := rfl
@[simp] theorem answered_resp (p : Port) (r : RespWord) (s : State) :
    (answered p r s).resp = s.resp.set p (s.resp.get p ++ [r]) := rfl
@[simp] theorem answered_schedule (p : Port) (r : RespWord) (s : State) :
    (answered p r s).schedule = s.schedule := rfl
@[simp] theorem answered_draws (p : Port) (r : RespWord) (s : State) : (answered p r s).draws = s.draws := rfl

/-! ### The fields after `writeViews` -/

@[simp] theorem writeViews_cfg (t h : Nat) (s : State) :
    (writeViews t h s).cfg = s.cfg := by
  unfold writeViews; split <;> rfl
@[simp] theorem writeViews_storage (t h : Nat) (s : State) :
    (writeViews t h s).storage = s.storage := by
  unfold writeViews; split <;> rfl
@[simp] theorem writeViews_head (t h : Nat) (s : State) :
    (writeViews t h s).head = s.head := by
  unfold writeViews; split <;> rfl
@[simp] theorem writeViews_tail (t h : Nat) (s : State) :
    (writeViews t h s).tail = s.tail := by
  unfold writeViews; split <;> rfl
@[simp] theorem writeViews_pEn (t h : Nat) (s : State) :
    (writeViews t h s).pEn = s.pEn := by
  unfold writeViews; split <;> rfl
@[simp] theorem writeViews_acc (t h : Nat) (s : State) :
    (writeViews t h s).acc = s.acc := by
  unfold writeViews; split <;> rfl
@[simp] theorem writeViews_accValid (t h : Nat) (s : State) :
    (writeViews t h s).accValid = s.accValid := by
  unfold writeViews; split <;> rfl
@[simp] theorem writeViews_faultCode (t h : Nat) (s : State) :
    (writeViews t h s).faultCode = s.faultCode := by
  unfold writeViews; split <;> rfl
@[simp] theorem writeViews_pc (t h : Nat) (s : State) :
    (writeViews t h s).pc = s.pc := by
  unfold writeViews; split <;> rfl
@[simp] theorem writeViews_cmds (t h : Nat) (s : State) :
    (writeViews t h s).cmds = s.cmds := by
  unfold writeViews; split <;> rfl
@[simp] theorem writeViews_resp (t h : Nat) (s : State) :
    (writeViews t h s).resp = s.resp := by
  unfold writeViews; split <;> rfl
@[simp] theorem writeViews_schedule (t h : Nat) (s : State) :
    (writeViews t h s).schedule = s.schedule := by
  unfold writeViews; split <;> rfl
@[simp] theorem writeViews_draws (t h : Nat) (s : State) :
    (writeViews t h s).draws = s.draws := by
  unfold writeViews; split <;> rfl

/-! ### The fields after `recordFault` -/

@[simp] theorem recordFault_cfg (c : Cause) (s : State) :
    (recordFault c s).cfg = s.cfg := by
  unfold recordFault; split <;> rfl
@[simp] theorem recordFault_storage (c : Cause) (s : State) :
    (recordFault c s).storage = s.storage := by
  unfold recordFault; split <;> rfl
@[simp] theorem recordFault_head (c : Cause) (s : State) :
    (recordFault c s).head = s.head := by
  unfold recordFault; split <;> rfl
@[simp] theorem recordFault_tail (c : Cause) (s : State) :
    (recordFault c s).tail = s.tail := by
  unfold recordFault; split <;> rfl
@[simp] theorem recordFault_tailViewP (c : Cause) (s : State) :
    (recordFault c s).tailViewP = s.tailViewP := by
  unfold recordFault; split <;> rfl
@[simp] theorem recordFault_headViewC (c : Cause) (s : State) :
    (recordFault c s).headViewC = s.headViewC := by
  unfold recordFault; split <;> rfl
@[simp] theorem recordFault_pEn (c : Cause) (s : State) :
    (recordFault c s).pEn = s.pEn := by
  unfold recordFault; split <;> rfl
@[simp] theorem recordFault_acc (c : Cause) (s : State) :
    (recordFault c s).acc = s.acc := by
  unfold recordFault; split <;> rfl
@[simp] theorem recordFault_accValid (c : Cause) (s : State) :
    (recordFault c s).accValid = s.accValid := by
  unfold recordFault; split <;> rfl
@[simp] theorem recordFault_pc (c : Cause) (s : State) :
    (recordFault c s).pc = s.pc := by
  unfold recordFault; split <;> rfl
@[simp] theorem recordFault_cmds (c : Cause) (s : State) :
    (recordFault c s).cmds = s.cmds := by
  unfold recordFault; split <;> rfl
@[simp] theorem recordFault_resp (c : Cause) (s : State) :
    (recordFault c s).resp = s.resp := by
  unfold recordFault; split <;> rfl
@[simp] theorem recordFault_schedule (c : Cause) (s : State) :
    (recordFault c s).schedule = s.schedule := by
  unfold recordFault; split <;> rfl
@[simp] theorem recordFault_draws (c : Cause) (s : State) :
    (recordFault c s).draws = s.draws := by
  unfold recordFault; split <;> rfl

/-! ### The fields after `hostQuiesce` -/

@[simp] theorem hostQuiesce_cfg (s : State) : (hostQuiesce s).cfg = s.cfg := rfl
@[simp] theorem hostQuiesce_storage (s : State) : (hostQuiesce s).storage = s.storage := rfl
@[simp] theorem hostQuiesce_head (s : State) : (hostQuiesce s).head = s.head := rfl
@[simp] theorem hostQuiesce_tail (s : State) : (hostQuiesce s).tail = s.tail := rfl
@[simp] theorem hostQuiesce_tailViewP (s : State) : (hostQuiesce s).tailViewP = s.tailViewP := rfl
@[simp] theorem hostQuiesce_headViewC (s : State) : (hostQuiesce s).headViewC = s.headViewC := rfl
@[simp] theorem hostQuiesce_pEn (s : State) : (hostQuiesce s).pEn = false := rfl
@[simp] theorem hostQuiesce_acc (s : State) : (hostQuiesce s).acc = s.acc := rfl
@[simp] theorem hostQuiesce_accValid (s : State) : (hostQuiesce s).accValid = s.accValid := rfl
@[simp] theorem hostQuiesce_faultCode (s : State) : (hostQuiesce s).faultCode = s.faultCode := rfl
@[simp] theorem hostQuiesce_pc (s : State) : (hostQuiesce s).pc = s.pc := rfl
@[simp] theorem hostQuiesce_cmds (s : State) : (hostQuiesce s).cmds = s.cmds := rfl
@[simp] theorem hostQuiesce_resp (s : State) : (hostQuiesce s).resp = s.resp := rfl
@[simp] theorem hostQuiesce_schedule (s : State) : (hostQuiesce s).schedule = s.schedule := rfl
@[simp] theorem hostQuiesce_draws (s : State) : (hostQuiesce s).draws = s.draws := rfl

/-! ### The fields after `hostResume` -/

@[simp] theorem hostResume_cfg (s : State) : (hostResume s).cfg = s.cfg := rfl
@[simp] theorem hostResume_storage (s : State) : (hostResume s).storage = s.storage := rfl
@[simp] theorem hostResume_head (s : State) : (hostResume s).head = s.head := rfl
@[simp] theorem hostResume_tail (s : State) : (hostResume s).tail = s.tail := rfl
@[simp] theorem hostResume_tailViewP (s : State) : (hostResume s).tailViewP = s.tailViewP := rfl
@[simp] theorem hostResume_headViewC (s : State) : (hostResume s).headViewC = s.headViewC := rfl
@[simp] theorem hostResume_pEn (s : State) : (hostResume s).pEn = true := rfl
@[simp] theorem hostResume_acc (s : State) : (hostResume s).acc = s.acc := rfl
@[simp] theorem hostResume_accValid (s : State) : (hostResume s).accValid = s.accValid := rfl
@[simp] theorem hostResume_faultCode (s : State) : (hostResume s).faultCode = s.faultCode := rfl
@[simp] theorem hostResume_pc (s : State) : (hostResume s).pc = s.pc := rfl
@[simp] theorem hostResume_cmds (s : State) : (hostResume s).cmds = s.cmds := rfl
@[simp] theorem hostResume_resp (s : State) : (hostResume s).resp = s.resp := rfl
@[simp] theorem hostResume_schedule (s : State) : (hostResume s).schedule = s.schedule := rfl
@[simp] theorem hostResume_draws (s : State) : (hostResume s).draws = s.draws := rfl

/-! ### The fields after `syncTail` -/

@[simp] theorem syncTail_cfg (s : State) : (syncTail s).cfg = s.cfg := by
  unfold syncTail; split <;> rfl
@[simp] theorem syncTail_storage (s : State) :
    (syncTail s).storage = s.storage := by
  unfold syncTail; split <;> rfl
@[simp] theorem syncTail_head (s : State) : (syncTail s).head = s.head := by
  unfold syncTail; split <;> rfl
@[simp] theorem syncTail_tail (s : State) : (syncTail s).tail = s.tail := by
  unfold syncTail; split <;> rfl
@[simp] theorem syncTail_headViewC (s : State) :
    (syncTail s).headViewC = s.headViewC := by
  unfold syncTail; split <;> rfl
@[simp] theorem syncTail_pEn (s : State) : (syncTail s).pEn = s.pEn := by
  unfold syncTail; split <;> rfl
@[simp] theorem syncTail_acc (s : State) : (syncTail s).acc = s.acc := by
  unfold syncTail; split <;> rfl
@[simp] theorem syncTail_accValid (s : State) :
    (syncTail s).accValid = s.accValid := by
  unfold syncTail; split <;> rfl
@[simp] theorem syncTail_faultCode (s : State) :
    (syncTail s).faultCode = s.faultCode := by
  unfold syncTail; split <;> rfl
@[simp] theorem syncTail_pc (s : State) : (syncTail s).pc = s.pc := by
  unfold syncTail; split <;> rfl
@[simp] theorem syncTail_cmds (s : State) : (syncTail s).cmds = s.cmds := by
  unfold syncTail; split <;> rfl
@[simp] theorem syncTail_resp (s : State) : (syncTail s).resp = s.resp := by
  unfold syncTail; split <;> rfl
@[simp] theorem syncTail_schedule (s : State) :
    (syncTail s).schedule = s.schedule := by
  unfold syncTail; split <;> rfl
@[simp] theorem syncTail_draws (s : State) : (syncTail s).draws = s.draws := by
  unfold syncTail; split <;> rfl

/-! ### The fields after `syncHead` -/

@[simp] theorem syncHead_cfg (s : State) : (syncHead s).cfg = s.cfg := by
  unfold syncHead; split <;> rfl
@[simp] theorem syncHead_storage (s : State) :
    (syncHead s).storage = s.storage := by
  unfold syncHead; split <;> rfl
@[simp] theorem syncHead_head (s : State) : (syncHead s).head = s.head := by
  unfold syncHead; split <;> rfl
@[simp] theorem syncHead_tail (s : State) : (syncHead s).tail = s.tail := by
  unfold syncHead; split <;> rfl
@[simp] theorem syncHead_tailViewP (s : State) :
    (syncHead s).tailViewP = s.tailViewP := by
  unfold syncHead; split <;> rfl
@[simp] theorem syncHead_pEn (s : State) : (syncHead s).pEn = s.pEn := by
  unfold syncHead; split <;> rfl
@[simp] theorem syncHead_acc (s : State) : (syncHead s).acc = s.acc := by
  unfold syncHead; split <;> rfl
@[simp] theorem syncHead_accValid (s : State) :
    (syncHead s).accValid = s.accValid := by
  unfold syncHead; split <;> rfl
@[simp] theorem syncHead_faultCode (s : State) :
    (syncHead s).faultCode = s.faultCode := by
  unfold syncHead; split <;> rfl
@[simp] theorem syncHead_pc (s : State) : (syncHead s).pc = s.pc := by
  unfold syncHead; split <;> rfl
@[simp] theorem syncHead_cmds (s : State) : (syncHead s).cmds = s.cmds := by
  unfold syncHead; split <;> rfl
@[simp] theorem syncHead_resp (s : State) : (syncHead s).resp = s.resp := by
  unfold syncHead; split <;> rfl
@[simp] theorem syncHead_schedule (s : State) :
    (syncHead s).schedule = s.schedule := by
  unfold syncHead; split <;> rfl
@[simp] theorem syncHead_draws (s : State) : (syncHead s).draws = s.draws := by
  unfold syncHead; split <;> rfl

/-! ### The fields after `hostReset` -/

@[simp] theorem hostReset_cfg (s : State) : (hostReset s).cfg = s.cfg := by
  unfold hostReset; simp
@[simp] theorem hostReset_storage (s : State) : (hostReset s).storage = [] := by
  unfold hostReset; simp
@[simp] theorem hostReset_head (s : State) : (hostReset s).head = 0 := by
  unfold hostReset; simp
@[simp] theorem hostReset_tail (s : State) : (hostReset s).tail = 0 := by
  unfold hostReset; simp
@[simp] theorem hostReset_pEn (s : State) : (hostReset s).pEn = true := by
  unfold hostReset; simp
@[simp] theorem hostReset_acc (s : State) :
    (hostReset s).acc = Config.accAfterReset (s.draws + 1) := by
  unfold hostReset; simp
@[simp] theorem hostReset_accValid (s : State) : (hostReset s).accValid = false := by
  unfold hostReset; simp
@[simp] theorem hostReset_faultCode (s : State) : (hostReset s).faultCode = 0x00#8 := by
  unfold hostReset; simp
@[simp] theorem hostReset_pc (s : State) : (hostReset s).pc = s.pc := by
  unfold hostReset; simp
@[simp] theorem hostReset_cmds (s : State) : (hostReset s).cmds = s.cmds := by
  unfold hostReset; simp
@[simp] theorem hostReset_resp (s : State) : (hostReset s).resp = s.resp := by
  unfold hostReset; simp
@[simp] theorem hostReset_schedule (s : State) : (hostReset s).schedule = s.schedule := by
  unfold hostReset; simp
@[simp] theorem hostReset_draws (s : State) : (hostReset s).draws = s.draws + 1 := by
  unfold hostReset; simp

/-! ### The views after the operations that write them -/

@[simp] theorem writeViews_tailViewP (t h : Nat) (s : State) :
    (writeViews t h s).tailViewP = if s.cfg.viewMode = .lagging then t else s.tailViewP := by
  cases hm : s.cfg.viewMode <;> simp [writeViews, hm]
@[simp] theorem writeViews_headViewC (t h : Nat) (s : State) :
    (writeViews t h s).headViewC = if s.cfg.viewMode = .lagging then h else s.headViewC := by
  cases hm : s.cfg.viewMode <;> simp [writeViews, hm]
@[simp] theorem hostReset_tailViewP (s : State) :
    (hostReset s).tailViewP = if s.cfg.viewMode = .lagging then 0 else s.tailViewP := by
  unfold hostReset; simp
@[simp] theorem hostReset_headViewC (s : State) :
    (hostReset s).headViewC = if s.cfg.viewMode = .lagging then 0 else s.headViewC := by
  unfold hostReset; simp
@[simp] theorem syncTail_tailViewP (s : State) :
    (syncTail s).tailViewP = if syncTEnabled s then s.tail else s.tailViewP := by
  unfold syncTail; split <;> rfl
@[simp] theorem syncHead_headViewC (s : State) :
    (syncHead s).headViewC = if syncHEnabled s then s.head else s.headViewC := by
  unfold syncHead; split <;> rfl

/-- Answering is what completes a command: the response word and the index (R32, R64). -/
theorem complete_eq_answered (p : Port) (st : Status) (d : BitVec 16) (s : State) :
    complete p st d s = answered p (respWord st d) s := rfl

/-! ### New responses -/

/-- The response an answer added is the one it gives. -/
theorem newResponse_answered (p : Port) (r : RespWord) (s u : State) (h : u.resp = s.resp) :
    newResponse p s (answered p r u) = some r := by
  simp [newResponse, h]

@[simp] theorem newResponse_self (p : Port) (s : State) : newResponse p s s = none := by
  simp [newResponse]

end Sys2Proof.Machine
end

