-- ==== Sys2Proof/Laws/Commands.lean ====
section
/-! SUPPORT. What a command can do, said once: the response words, the common step of rule R80, and every effect that
issuing a word (`issue_effect`) or taking an action (`perform_effect`) can have. -/

namespace Sys2Proof.Machine

open Sys2Proof

/-! ### Response words (R64) -/

theorem respWord_plain (st : Status) : respWord st 0x0000#16 = statusCode st ++ 0x000000#24 := by
  cases st <;> decide

@[simp] theorem respWord_ok : respWord .ok 0x0000#16 = 0x00000000#32 := by decide
@[simp] theorem respWord_full : respWord .full 0x0000#16 = 0x01000000#32 := by decide
@[simp] theorem respWord_empty : respWord .empty 0x0000#16 = 0x02000000#32 := by decide
@[simp] theorem respWord_fault : respWord .fault 0x0000#16 = 0xFF000000#32 := by decide

/-- A byte answered with a status. -/
theorem respWord_byte (st : Status) (b : Byte) :
    respWord st (zext16 b) = (statusCode st ++ 0x0000#16) ++ b := by
  apply BitVec.eq_of_toNat_eq
  have := b.isLt
  simp only [respWord, zext16, BitVec.toNat_append, BitVec.truncate_eq_setWidth, BitVec.toNat_setWidth,
    BitVec.toNat_ofNat, Nat.shiftLeft_eq]
  rw [Nat.mod_eq_of_lt (by omega : b.toNat < 2 ^ 16)]
  simp [Nat.mul_assoc]

@[simp] theorem respWord_ok_byte (b : Byte) : respWord .ok (zext16 b) = 0x000000#24 ++ b :=
  respWord_byte .ok b

@[simp] theorem respWord_mismatch_byte (b : Byte) : respWord .mismatch (zext16 b) = 0x030000#24 ++ b :=
  respWord_byte .mismatch b

/-- A count answered OK: nothing of it is lost below 65536 (R86). -/
theorem respWord_count (n : Nat) (h : n < 65536) : respWord .ok (count16 n) = BitVec.ofNat 32 n := by
  apply BitVec.eq_of_toNat_eq
  have hz : (statusCode .ok ++ 0x00#8 : BitVec 16).toNat = 0 := by decide
  rw [respWord, BitVec.toNat_append, hz, count16, BitVec.toNat_ofNat, BitVec.toNat_ofNat]
  simp only [Nat.zero_shiftLeft, Nat.zero_or]
  omega

/-! ### The common step (R80) -/

theorem held_eq_true (p : Port) (s : State) : held p s = true ↔ p = .P ∧ s.pEn = false := by
  simp [held]

theorem held_eq_false (p : Port) (s : State) : held p s = false ↔ (p = .P → s.pEn = true) := by
  cases h : s.pEn <;> simp [held, h]

theorem ready_iff (p : Port) (s : State) : Ready p s ↔ s.faultCode = 0x00#8 ∧ held p s = false := by
  rw [held_eq_false]

/-- The gate of rule R80, once and for all: held, faulted, or the body. -/
theorem gate_spec (p : Port) (s : State) (body : State → Host.Outcome State Fault Refusal) :
    (held p s = true → gate p s body = .next s) ∧
    (held p s = false → s.faultCode ≠ 0x00#8 → gate p s body = .next (answered p 0xFF000000#32 s)) ∧
    (Ready p s → gate p s body = body s) := by
  refine ⟨fun h => ?_, fun h hf => ?_, fun h => ?_⟩
  · simp [gate, h]
  · simp [gate, h, hf, complete_eq_answered]
  · obtain ⟨hf, hh⟩ := (ready_iff p s).1 h
    simp [gate, hh, hf]

/-- Every command passes the gate first. -/
theorem runCommand_gate (i : Instr) (s : State) (body : State → Host.Outcome State Fault Refusal) :
    (held i.port s = true → runCommand i s body = .next s) ∧
    (held i.port s = false → s.faultCode ≠ 0x00#8 →
      runCommand i s body = .next (answered i.port 0xFF000000#32 s)) :=
  ⟨(gate_spec _ _ _).1, (gate_spec _ _ _).2.1⟩

/-- On a ready port a well-formed command runs its own rule. -/
theorem runCommand_ready (i : Instr) (s : State) (body : State → Host.Outcome State Fault Refusal)
    (hr : Ready i.port s) (hw : i.wellFormed = true) : runCommand i s body = body s := by
  unfold runCommand
  rw [(gate_spec _ _ _).2.2 hr, if_pos hw]

/-- Fault entry (R121) on a block that holds no fault. -/
theorem raiseFault_unfaulted (p : Port) (c : Cause) (s : State) (h : s.faultCode = 0x00#8) :
    raiseFault p c s = answered p 0xFF000000#32 { s with faultCode := causeCode c } := by
  simp [raiseFault, recordFault, h, complete_eq_answered]

/-- On a ready port a command of the wrong port faults (R66 (d)). -/
theorem runCommand_wrongPort (i : Instr) (s : State) (body : State → Host.Outcome State Fault Refusal)
    (hr : Ready i.port s) (hw : i.wellFormed = false) :
    runCommand i s body = .next (answered i.port 0xFF000000#32 { s with faultCode := 0x01#8 }) := by
  unfold runCommand
  rw [(gate_spec _ _ _).2.2 hr]
  simp [hw, raiseFault_unfaulted _ _ _ hr.1, causeCode]

/-! ### The tests and placements that other operations are made of -/

/-- The test of `acc_valid` (R104 to R106): the body, or the fault with code 0x02. -/
theorem withAcc_spec (p : Port) (s : State) (body : State → State) :
    (s.accValid = true → withAcc p s body = body s) ∧
    (s.accValid = false → withAcc p s body = raiseFault p .crcUninitialised s) := by
  constructor <;> intro h <;> simp [withAcc, h]

/-- A word placed at a position stands there, and every word before it that the list held stays. -/
theorem placeAt_spec (l : List CmdWord) (k : Nat) (w : CmdWord) :
    (placeAt l k w)[k]? = some w ∧ ∀ j, j < k → j < l.length → (placeAt l k w)[j]? = l[j]? := by
  induction k generalizing l with
  | zero => cases l <;> exact ⟨rfl, fun j h => absurd h (by omega)⟩
  | succ k ih =>
    cases l with
    | nil => exact ⟨by simpa [placeAt] using (ih []).1, fun j _ h => absurd h (by simp)⟩
    | cons v vs =>
      refine ⟨by simpa [placeAt] using (ih vs).1, fun j hj hl => ?_⟩
      cases j with
      | zero => rfl
      | succ j => simpa [placeAt] using (ih vs).2 j (by omega) (by simpa using hl)

/-- A word loaded as the next command is the one fetched, and issuing it is the next action (log entry 6). -/
theorem loadNext_spec (p : Port) (w : CmdWord) (s : State) :
    fetch p (loadNext p w s) = some w ∧ (loadNext p w s).schedule = .command p :: s.schedule := by
  exact ⟨by simpa [fetch, loadNext] using (placeAt_spec (s.cmds.get p) (s.pc.get p) w).1, rfl⟩

/-! ### Every effect -/

/-- The ground on which a ready port's word raises a fault (R123, R124). -/
def Raises (p : Port) (w : CmdWord) (s : State) (c : Cause) : Prop :=
  ((∃ why, decode p w = .illegal why) ∧ c = .illegalCommand) ∨
  (decode p w = .cmd (.clear .C) ∧ s.pEn = true ∧ c = .clearWhileProducerActive) ∨
  ((∃ b, decode p w = .cmd (.crcFeed .K b) ∨ decode p w = .cmd (.crcRead .K) ∨
      decode p w = .cmd (.crcCheck .K b)) ∧ s.accValid = false ∧ c = .crcUninitialised)

/-- Everything that issuing a word `w` on port `p` in state `s` can lead to. -/
inductive CommandEffect (p : Port) (w : CmdWord) (s : State) : State → Prop where
  | held (h : held p s = true) : CommandEffect p w s s
  | faulted (h : held p s = false) (hf : s.faultCode ≠ 0x00#8) :
      CommandEffect p w s (answered p 0xFF000000#32 s)
  | raised (hr : Ready p s) (c : Cause) (hc : Raises p w s c) :
      CommandEffect p w s (answered p 0xFF000000#32 { s with faultCode := causeCode c })
  | putFull (hr : Ready p s) (hp : p = .P) (b : Byte) (hd : decode p w = .cmd (.put .P b))
      (hf : fullSeen s = true) : CommandEffect p w s (answered .P 0x01000000#32 s)
  | put (hr : Ready p s) (hp : p = .P) (b : Byte) (hd : decode p w = .cmd (.put .P b))
      (hf : fullSeen s = false) (hh : s.head < s.cfg.N) :
      CommandEffect p w s (answered .P 0x00000000#32
        { s with storage := Memory.write s.storage s.head b, head := nextIndex s.head s.cfg.N })
  | getEmpty (hr : Ready p s) (hp : p = .C) (hd : decode p w = .cmd (.get .C)) (he : emptySeen s = true) :
      CommandEffect p w s (answered .C 0x02000000#32 s)
  | get (hr : Ready p s) (hp : p = .C) (hd : decode p w = .cmd (.get .C)) (he : emptySeen s = false)
      (ht : s.tail < s.cfg.N) :
      CommandEffect p w s (answered .C (0x000000#24 ++ slotByte s.tail s)
        { s with tail := nextIndex s.tail s.cfg.N })
  | count (hr : Ready p s) (n : Nat)
      (hd : (decode p w = .cmd (.avail p) ∧ availOn p s = some n) ∨
        (decode p w = .cmd (.free p) ∧ freeOn p s = some n)) :
      CommandEffect p w s (answered p (respWord .ok (count16 n)) s)
  | clear (hr : Ready p s) (hp : p = .C) (hd : decode p w = .cmd (.clear .C)) (he : s.pEn = false) :
      CommandEffect p w s (answered .C 0x00000000#32 (writeViews 0 0 { s with head := 0, tail := 0 }))
  | crcInit (hr : Ready p s) (hp : p = .K) (hd : decode p w = .cmd (.crcInit .K)) :
      CommandEffect p w s (answered .K 0x00000000#32 { s with acc := 0xFF#8, accValid := true })
  | crcFeed (hr : Ready p s) (hp : p = .K) (b : Byte) (hd : decode p w = .cmd (.crcFeed .K b))
      (hv : s.accValid = true) :
      CommandEffect p w s (answered .K (0x000000#24 ++ crc8Update s.acc b) { s with acc := crc8Update s.acc b })
  | crcRead (hr : Ready p s) (hp : p = .K) (hd : decode p w = .cmd (.crcRead .K)) (hv : s.accValid = true) :
      CommandEffect p w s (answered .K (0x000000#24 ++ s.acc) s)
  | crcCheckOk (hr : Ready p s) (hp : p = .K) (hd : decode p w = .cmd (.crcCheck .K s.acc))
      (hv : s.accValid = true) : CommandEffect p w s (answered .K (0x000000#24 ++ s.acc) s)
  | crcCheckMismatch (hr : Ready p s) (hp : p = .K) (c : Byte) (hd : decode p w = .cmd (.crcCheck .K c))
      (hc : s.acc ≠ c) (hv : s.accValid = true) :
      CommandEffect p w s (answered .K (0x030000#24 ++ s.acc) s)

/-- A decoded command carries the port it was issued on and is legal there. -/
theorem decode_cmd (p : Port) (w : CmdWord) (i : Instr) (h : decode p w = .cmd i) :
    i.port = p ∧ i.wellFormed = true := by
  unfold decode at h
  split at h
  · cases h
  · rename_i j hj
    have hp : j.port = p := by
      unfold commandOf at hj
      split_ifs at hj <;> cases hj <;> rfl
    split_ifs at h with h₁ h₂ h₃
    cases h
    exact ⟨hp, by simpa using h₃⟩

/-- On a ready port, every effect that a decoded command's meaning can have. -/
theorem exec_effect (p : Port) (w : CmdWord) (i : Instr) (s t : State) (hr : Ready p s)
    (hd : decode p w = .cmd i) (h : exec i s = .next t) : CommandEffect p w s t := by
  obtain ⟨hp, hw⟩ := decode_cmd p w i hd
  have hr' : Ready i.port s := hp ▸ hr
  cases i with
  | put q b =>
    cases q <;> cases hp <;> cases hw
    simp only [exec, execPut, runCommand_ready _ _ _ hr' rfl] at h
    split_ifs at h with hf
    · cases h
      rw [complete_eq_answered, respWord_full]
      exact .putFull hr rfl b hd hf
    · split at h
      · cases h
      · rename_i s' hm
        obtain ⟨hi, rfl, -⟩ := memWrite_spec _ _ _ _ hm
        cases h
        rw [complete_eq_answered, respWord_ok]
        exact .put hr rfl b hd (by simpa using hf) hi
  | get q =>
    cases q <;> cases hp <;> cases hw
    simp only [exec, execGet, runCommand_ready _ _ _ hr' rfl] at h
    split_ifs at h with he
    · cases h
      rw [complete_eq_answered, respWord_empty]
      exact .getEmpty hr rfl hd he
    · split at h
      · cases h
      · rename_i b hm
        obtain ⟨hi, rfl⟩ := (memRead_spec _ _ _).1 hm
        cases h
        rw [complete_eq_answered, respWord_ok_byte]
        exact .get hr rfl hd (by simpa using he) hi
  | avail q =>
    obtain rfl : q = p := hp
    simp only [exec, execAvail, runCommand_ready _ _ _ hr' hw] at h
    cases h
    cases hn : availOn q s with
    | some n => exact .count hr n (.inl ⟨hd, hn⟩)
    | none => cases q <;> first | exact absurd hw (by decide) | cases hn
  | free q =>
    obtain rfl : q = p := hp
    simp only [exec, execFree, runCommand_ready _ _ _ hr' hw] at h
    cases h
    cases hn : freeOn q s with
    | some n => exact .count hr n (.inr ⟨hd, hn⟩)
    | none => cases q <;> first | exact absurd hw (by decide) | cases hn
  | clear q =>
    cases q <;> cases hp <;> cases hw
    simp only [exec, execClear, runCommand_ready _ _ _ hr' rfl] at h
    split_ifs at h with he <;> cases h
    · rw [raiseFault_unfaulted _ _ _ hr.1]
      exact .raised hr _ (.inr (.inl ⟨hd, he, rfl⟩))
    · rw [complete_eq_answered, respWord_ok]
      exact .clear hr rfl hd (by simpa using he)
  | crcInit q =>
    cases q <;> cases hp <;> cases hw
    simp only [exec, execCrcInit, runCommand_ready _ _ _ hr' rfl] at h
    cases h
    rw [complete_eq_answered, respWord_ok]
    exact .crcInit hr rfl hd
  | crcFeed q b =>
    cases q <;> cases hp <;> cases hw
    simp only [exec, execCrcFeed, runCommand_ready _ _ _ hr' rfl, withAcc] at h
    split_ifs at h with hv <;> cases h
    · rw [complete_eq_answered, respWord_ok_byte]
      exact .crcFeed hr rfl b hd hv
    · rw [raiseFault_unfaulted _ _ _ hr.1]
      exact .raised hr _ (.inr (.inr ⟨⟨b, .inl hd⟩, by simpa using hv, rfl⟩))
  | crcRead q =>
    cases q <;> cases hp <;> cases hw
    simp only [exec, execCrcRead, runCommand_ready _ _ _ hr' rfl, withAcc] at h
    split_ifs at h with hv <;> cases h
    · rw [complete_eq_answered, respWord_ok_byte]
      exact .crcRead hr rfl hd hv
    · rw [raiseFault_unfaulted _ _ _ hr.1]
      exact .raised hr _ (.inr (.inr ⟨⟨0, .inr (.inl hd)⟩, by simpa using hv, rfl⟩))
  | crcCheck q c =>
    cases q <;> cases hp <;> cases hw
    simp only [exec, execCrcCheck, runCommand_ready _ _ _ hr' rfl, withAcc] at h
    split_ifs at h with hv hc <;> cases h
    · subst hc
      rw [complete_eq_answered, respWord_ok_byte]
      exact .crcCheckOk hr rfl hd hv
    · rw [complete_eq_answered, respWord_mismatch_byte]
      exact .crcCheckMismatch hr rfl c hd hc hv
    · rw [raiseFault_unfaulted _ _ _ hr.1]
      exact .raised hr _ (.inr (.inr ⟨⟨c, .inr (.inr hd)⟩, by simpa using hv, rfl⟩))

/-- Every meaning is the common step of rule R80 around a rule of its own. -/
theorem exec_runs (i : Instr) : ∃ body, ∀ s, exec i s = runCommand i s body := by
  cases i <;> exact ⟨_, fun _ => rfl⟩

/-- Every meaning passes the gate of rule R80 first. -/
theorem exec_gate (i : Instr) (s : State) :
    (held i.port s = true → exec i s = .next s) ∧
    (held i.port s = false → s.faultCode ≠ 0x00#8 → exec i s = .next (answered i.port 0xFF000000#32 s)) := by
  obtain ⟨body, hb⟩ := exec_runs i
  rw [hb]
  exact runCommand_gate i s body

/-- Issuing a word passes the gate of rule R80 first. -/
theorem issue_gate (p : Port) (w : CmdWord) (s : State) :
    (held p s = true → issue p w s = .next s) ∧
    (held p s = false → s.faultCode ≠ 0x00#8 → issue p w s = .next (answered p 0xFF000000#32 s)) := by
  unfold issue
  cases hd : decode p w with
  | illegal why => exact ⟨(gate_spec _ _ _).1, (gate_spec _ _ _).2.1⟩
  | cmd i =>
    obtain rfl := (decode_cmd p w i hd).1
    exact exec_gate i s

/-- On a ready port an illegal word faults (R66). -/
theorem runIllegal_ready (p : Port) (s : State) (hr : Ready p s) :
    runIllegal p s = .next (answered p 0xFF000000#32 { s with faultCode := 0x01#8 }) := by
  unfold runIllegal
  rw [(gate_spec _ _ _).2.2 hr, raiseFault_unfaulted _ _ _ hr.1]
  rfl

/-- What issuing a word can do: if it answers a next state, then one of the effects has happened. -/
theorem issue_effect (p : Port) (w : CmdWord) (s t : State) (h : issue p w s = .next t) :
    CommandEffect p w s t := by
  cases hh : held p s with
  | true =>
    rw [(issue_gate p w s).1 hh] at h
    cases h
    exact .held hh
  | false =>
    by_cases hf : s.faultCode = 0x00#8
    · have hr : Ready p s := (ready_iff p s).2 ⟨hf, hh⟩
      unfold issue at h
      cases hd : decode p w with
      | illegal why =>
        simp only [hd, runIllegal_ready p s hr] at h
        cases h
        exact .raised hr .illegalCommand (.inl ⟨⟨why, hd⟩, rfl⟩)
      | cmd i =>
        simp only [hd] at h
        exact exec_effect p w i s t hr hd h
    · rw [(issue_gate p w s).2 hh hf] at h
      cases h
      exact .faulted hh hf

/-- Everything that an action can lead to. -/
inductive Effect (s : State) : Action → State → Prop where
  | none (p : Port) (h : fetch p s = none) : Effect s (.command p) s
  | command (p : Port) (w : CmdWord) (t : State) (h : fetch p s = some w) (he : CommandEffect p w s t) :
      Effect s (.command p) t
  | syncT : Effect s .syncT (syncTail s)
  | syncH : Effect s .syncH (syncHead s)
  | reset : Effect s .reset (hostReset s)
  | quiesce : Effect s .quiesce (hostQuiesce s)
  | resume : Effect s .resume (hostResume s)

/-- What an action can do: if it answers a next state, then one of the effects has happened. -/
theorem perform_effect (a : Action) (s t : State) (h : perform a s = .next t) : Effect s a t := by
  cases a with
  | command p =>
    simp only [perform] at h
    split at h
    · rename_i w hw
      exact .command p w t hw (issue_effect p w s t h)
    · rename_i hw
      cases h
      exact .none p hw
  | syncT => cases h; exact .syncT
  | syncH => cases h; exact .syncH
  | reset => cases h; exact .reset
  | quiesce => cases h; exact .quiesce
  | resume => cases h; exact .resume

/-- What a step can do: it takes the next action of the schedule, or there is none. -/
theorem step_cases (s t : State) (h : step s = .next t) :
    ∃ a rest, s.schedule = a :: rest ∧ perform a { s with schedule := rest } = .next t := by
  unfold step at h
  cases hs : s.schedule with
  | nil => simp [hs] at h
  | cons a rest => exact ⟨a, rest, rfl, by simpa [hs] using h⟩

end Sys2Proof.Machine
end

