-- ==== Sys2Proof/Laws/PerInstr.lean ====
section
/-! SUPPORT. The fields of an encoded command (R60, R61, R68), command by command. -/

namespace Sys2Proof

/-- The three fields of a word are those it was put together from. -/
theorem wordOf_fields (op rsv : BitVec 4) (imm : Byte) :
    opField (wordOf op rsv imm) = op ∧ rsvField (wordOf op rsv imm) = rsv ∧ immField (wordOf op rsv imm) = imm := by
  refine ⟨?_, ?_, ?_⟩ <;> apply BitVec.eq_of_getLsbD_eq <;> intro k hk <;>
    simp only [opField, rsvField, immField, wordOf, BitVec.getLsbD_extractLsb', BitVec.getLsbD_append] <;>
    interval_cases k <;> simp

/-- A word is put together from its three fields. -/
theorem wordOf_eta (w : CmdWord) : wordOf (opField w) (rsvField w) (immField w) = w := by
  apply BitVec.eq_of_getLsbD_eq
  intro k hk
  simp only [opField, rsvField, immField, wordOf, BitVec.getLsbD_extractLsb', BitVec.getLsbD_append]
  interval_cases k <;> simp

end Sys2Proof

/-- The word of a command holds its operation code, a reserved field of 0, and its byte operand (0x00 where it has
none). -/
def Sys2Proof.Laws.EncodeFields.Statement (i : Sys2Proof.Instr) : Prop :=
  Sys2Proof.opField (Sys2Proof.encode i) = i.opcode ∧ Sys2Proof.rsvField (Sys2Proof.encode i) = 0#4 ∧
    Sys2Proof.immField (Sys2Proof.encode i) = i.imm

namespace Sys2Proof.Laws.EncodeFields

open Sys2Proof

theorem put (p : Port) (b : Byte) : Statement (.put p b) := wordOf_fields _ _ _
theorem get (p : Port) : Statement (.get p) := wordOf_fields _ _ _
theorem avail (p : Port) : Statement (.avail p) := wordOf_fields _ _ _
theorem free (p : Port) : Statement (.free p) := wordOf_fields _ _ _
theorem clear (p : Port) : Statement (.clear p) := wordOf_fields _ _ _
theorem crcInit (p : Port) : Statement (.crcInit p) := wordOf_fields _ _ _
theorem crcFeed (p : Port) (b : Byte) : Statement (.crcFeed p b) := wordOf_fields _ _ _
theorem crcRead (p : Port) : Statement (.crcRead p) := wordOf_fields _ _ _
theorem crcCheck (p : Port) (c : Byte) : Statement (.crcCheck p c) := wordOf_fields _ _ _

end Sys2Proof.Laws.EncodeFields
end

