-- ==== Sys2Proof/Tests/Slice0.lean ====
section
/-! SUPPORT. The model's own tests, their expected results taken from 95_test_vectors.md and 30_encoding.md; then a
witness for every statement that has hypotheses. -/

namespace Sys2Proof.Tests

open Sys2Proof Sys2Proof.Machine

/-! ### Well-formedness: each check refuses an ill-formed term (R63) -/

theorem test_put_only_on_P : (Instr.put .P 0xFF#8).wellFormed = true ∧ (Instr.put .C 0x41#8).wellFormed = false ∧
    (Instr.put .K 0x41#8).wellFormed = false := by decide
theorem test_get_only_on_C : (Instr.get .C).wellFormed = true ∧ (Instr.get .P).wellFormed = false ∧
    (Instr.get .K).wellFormed = false := by decide
theorem test_avail_not_on_K : (Instr.avail .P).wellFormed = true ∧ (Instr.avail .C).wellFormed = true ∧
    (Instr.avail .K).wellFormed = false := by decide
theorem test_free_not_on_K : (Instr.free .P).wellFormed = true ∧ (Instr.free .C).wellFormed = true ∧
    (Instr.free .K).wellFormed = false := by decide
theorem test_clear_only_on_C : (Instr.clear .C).wellFormed = true ∧ (Instr.clear .P).wellFormed = false ∧
    (Instr.clear .K).wellFormed = false := by decide
theorem test_crc_only_on_K : ∀ p b, ∀ i ∈ [Instr.crcInit p, .crcFeed p b, .crcRead p, .crcCheck p b],
    i.wellFormed = decide (p = .K) := by
  intro p b
  cases p <;> simp [Instr.wellFormed, Instr.legalPorts, Instr.port]

/-! ### Decoding: words written out from rules R60, R61 and R68 -/

theorem test_decode_legal_words :
    decode .P 0b0001000001000001#16 = .cmd (.put .P 0x41#8) ∧
    decode .C 0b0010000000000000#16 = .cmd (.get .C) ∧
    decode .P 0b0011000000000000#16 = .cmd (.avail .P) ∧
    decode .C 0b0011000000000000#16 = .cmd (.avail .C) ∧
    decode .P 0b0100000000000000#16 = .cmd (.free .P) ∧
    decode .C 0b0100000000000000#16 = .cmd (.free .C) ∧
    decode .C 0b0101000000000000#16 = .cmd (.clear .C) ∧
    decode .K 0b1000000000000000#16 = .cmd (.crcInit .K) ∧
    decode .K 0b1001000010111110#16 = .cmd (.crcFeed .K 0xBE#8) ∧
    decode .K 0b1010000000000000#16 = .cmd (.crcRead .K) ∧
    decode .K 0b1011000010010010#16 = .cmd (.crcCheck .K 0x92#8) := by decide

/-- Vectors DEC-1 to DEC-15 of 95_test_vectors.md. -/
theorem test_decode_illegal_words :
    decode .P 0x0000#16 = .illegal .reservedOp ∧ decode .C 0x0000#16 = .illegal .reservedOp ∧
    decode .P 0x1100#16 = .illegal .reservedBits ∧ decode .C 0x1041#16 = .illegal .wrongPort ∧
    decode .K 0x1041#16 = .illegal .wrongPort ∧ decode .P 0x2000#16 = .illegal .wrongPort ∧
    decode .C 0x2001#16 = .illegal .operandNotZero ∧ decode .K 0x3000#16 = .illegal .wrongPort ∧
    decode .P 0x6000#16 = .illegal .reservedOp ∧ decode .K 0x8001#16 = .illegal .operandNotZero ∧
    decode .K 0x9100#16 = .illegal .reservedBits ∧ decode .C 0x9000#16 = .illegal .wrongPort ∧
    decode .K 0xA0FF#16 = .illegal .operandNotZero ∧ decode .K 0xC000#16 = .illegal .reservedOp ∧
    decode .P 0xF0FF#16 = .illegal .reservedOp := by decide

/-- The words of the commands as rules R81 to R85 and R103 to R106 give them. -/
theorem test_encode_words :
    encode (.put .P 0xBB#8) = 0x10BB#16 ∧ encode (.get .C) = 0x2000#16 ∧ encode (.avail .P) = 0x3000#16 ∧
    encode (.free .C) = 0x4000#16 ∧ encode (.clear .C) = 0x5000#16 ∧ encode (.crcInit .K) = 0x8000#16 ∧
    encode (.crcFeed .K 0xBB#8) = 0x90BB#16 ∧ encode (.crcRead .K) = 0xA000#16 ∧
    encode (.crcCheck .K 0xCC#8) = 0xB0CC#16 := by decide

theorem test_decode_table_words :
    decodeTableWord 16 0x10FF = some (.put .P 0xFF#8) ∧ decodeTableWord 16 0x2000 = some (.get .C) ∧
    decodeTableWord 16 0x3000 = some (.avail .P) ∧ decodeTableWord 16 0x4000 = some (.free .P) ∧
    decodeTableWord 16 0x5000 = some (.clear .C) ∧ decodeTableWord 16 0x8000 = some (.crcInit .K) ∧
    decodeTableWord 16 0x9001 = some (.crcFeed .K 0x01#8) ∧ decodeTableWord 16 0xA000 = some (.crcRead .K) ∧
    decodeTableWord 16 0xB080 = some (.crcCheck .K 0x80#8) ∧ decodeTableWord 16 0x1100 = none ∧
    decodeTableWord 16 0x2001 = none := by decide

/-! ### Assembler text (R68) -/

theorem test_assemble_commands :
    assembleLine "P: PUT 0x41".toList = some (.command .P 0x1041#16) ∧
    assembleLine "P: PUT 'A' -- the same byte".toList = some (.command .P 0x1041#16) ∧
    assembleLine "P: PUT 65".toList = some (.command .P 0x1041#16) ∧
    assembleLine "C: GET".toList = some (.command .C 0x2000#16) ∧
    assembleLine "K: CRC.CHECK 0x92".toList = some (.command .K 0xB092#16) := by decide
theorem test_assemble_actions :
    assembleLine "H: QUIESCE".toList = some (.action .quiesce) ∧
    assembleLine "S: SYNC_T".toList = some (.action .syncT) ∧
    assembleLine "-- a comment".toList = some .blank := by decide
theorem test_assemble_refuses :
    assembleLine "P: PUT 256".toList = none ∧ assembleLine "P: put 0x41".toList = none ∧
    assembleLine "C: GET 0x00".toList = none ∧ assembleLine "P: PUT".toList = none ∧
    assembleLine "H: SYNC_T".toList = none := by decide

/-! ### One step each (95_test_vectors.md section 2) -/

/-- A block with the given indices and views, every slot `i` holding the byte `0x40 + i`. -/
def ring (N : Nat) (mode : ViewMode) (head tail tvp hvc : Nat) : State :=
  { State.powerUp ⟨N, mode⟩ with
    storage := (List.range N).map fun i => (i, 0x40#8 + BitVec.ofNat 8 i)
    head := head
    tail := tail
    tailViewP := tvp
    headViewC := hvc }

/-- A block with the given accumulator, valid. -/
def crcAt (acc : Byte) : State := { State.powerUp ⟨4, .lagging⟩ with acc := acc, accValid := true }

/-- The state after an outcome, and `s` itself after a stop. -/
def after (o : Host.Outcome State Fault Refusal) (s : State) : State :=
  match o with
  | .next t => t
  | _ => s

/-- The response that issuing a word gives. -/
def answer (p : Port) (w : CmdWord) (s : State) : Option RespWord := newResponse p s (after (issue p w s) s)

/-- The state after issuing a word. -/
def issued (p : Port) (w : CmdWord) (s : State) : State := after (issue p w s) s

/-- RB-3. -/
theorem test_put_wraps :
    answer .P 0x1041#16 (ring 4 .coherent 3 1 0 0) = some 0x00000000#32 ∧
    (issued .P 0x1041#16 (ring 4 .coherent 3 1 0 0)).head = 0 ∧
    Memory.read? (issued .P 0x1041#16 (ring 4 .coherent 3 1 0 0)).storage 3 = some 0x41#8 := by decide
/-- RB-5. -/
theorem test_put_spuriously_full :
    answer .P 0x1013#16 (ring 4 .lagging 3 1 0 3) = some 0x01000000#32 ∧
    (issued .P 0x1013#16 (ring 4 .lagging 3 1 0 3)).head = 3 := by decide
/-- RB-7, with the byte of slot 3. -/
theorem test_get_wraps :
    answer .C 0x2000#16 (ring 4 .coherent 1 3 0 0) = some 0x00000043#32 ∧
    (issued .C 0x2000#16 (ring 4 .coherent 1 3 0 0)).tail = 0 := by decide
/-- RB-8. -/
theorem test_get_spuriously_empty :
    answer .C 0x2000#16 (ring 4 .lagging 1 0 0 0) = some 0x02000000#32 ∧
    (issued .C 0x2000#16 (ring 4 .lagging 1 0 0 0)).tail = 0 := by decide
/-- RB-10. -/
theorem test_avail_depends_on_the_port :
    answer .P 0x3000#16 (ring 4 .lagging 1 0 0 0) = some 0x00000001#32 ∧
    answer .C 0x3000#16 (ring 4 .lagging 1 0 0 0) = some 0x00000000#32 := by decide
/-- The example of rule R83: 255 bytes queued of 256 slots; and the same across the wrap. -/
theorem test_avail_counts_to_255 :
    answer .P 0x3000#16 { State.reset with head := 255 } = some 0x000000FF#32 ∧
    answer .P 0x3000#16 { State.reset with head := 0, tailViewP := 1 } = some 0x000000FF#32 := by decide
/-- RB-11 and RB-12. -/
theorem test_free_vectors :
    answer .P 0x4000#16 (ring 4 .lagging 3 1 0 3) = some 0x00000000#32 ∧
    answer .P 0x4000#16 (ring 4 .lagging 0 0 0 0) = some 0x00000003#32 := by decide
/-- RB-13. -/
theorem test_clear_faults_while_producer_active :
    answer .C 0x5000#16 (ring 4 .lagging 1 0 0 0) = some 0xFF000000#32 ∧
    (issued .C 0x5000#16 (ring 4 .lagging 1 0 0 0)).faultCode = 0x03#8 ∧
    (issued .C 0x5000#16 (ring 4 .lagging 1 0 0 0)).head = 1 := by decide
/-- RB-14, with views to clear. -/
theorem test_clear_zeroes :
    answer .C 0x5000#16 { ring 4 .lagging 2 1 1 2 with pEn := false } = some 0x00000000#32 ∧
    issued .C 0x5000#16 { ring 4 .lagging 2 1 1 2 with pEn := false } =
      answered .C 0x00000000#32 { ring 4 .lagging 0 0 0 0 with pEn := false } := by decide
/-- CRC-1. -/
theorem test_crc_init :
    answer .K 0x8000#16 (ring 4 .lagging 0 0 0 0) = some 0x00000000#32 ∧
    (issued .K 0x8000#16 (ring 4 .lagging 0 0 0 0)).acc = 0xFF#8 ∧
    (issued .K 0x8000#16 (ring 4 .lagging 0 0 0 0)).accValid = true := by decide
/-- CRC-2 and CRC-13. -/
theorem test_crc_feed :
    answer .K 0x90BE#16 (crcAt 0xFF#8) = some 0x0000000C#32 ∧
    (issued .K 0x9093#16 (crcAt 0x92#8)).acc = 0x31#8 := by decide
/-- CRC-10. -/
theorem test_crc_feed_before_init :
    answer .K 0x9000#16 (ring 4 .lagging 0 0 0 0) = some 0xFF000000#32 ∧
    (issued .K 0x9000#16 (ring 4 .lagging 0 0 0 0)).faultCode = 0x02#8 := by decide
/-- CRC-9 and CRC-11. -/
theorem test_crc_read :
    answer .K 0xA000#16 (crcAt 0xFF#8) = some 0x000000FF#32 ∧
    answer .K 0xA000#16 (ring 4 .lagging 0 0 0 0) = some 0xFF000000#32 := by decide
/-- CRC-5 and CRC-6. -/
theorem test_crc_check :
    answer .K 0xB092#16 (crcAt 0x92#8) = some 0x00000092#32 ∧
    answer .K 0xB093#16 (crcAt 0x92#8) = some 0x03000092#32 := by decide
/-- CRC-12. -/
theorem test_crc_check_before_init :
    answer .K 0xB0FF#16 (ring 4 .lagging 0 0 0 0) = some 0xFF000000#32 := by decide

/-- The order of tests (R124): RB-16, a held PUT; DEC-11; and a word on a faulted block. -/
theorem test_order_of_tests :
    issued .P 0x1057#16 { ring 4 .lagging 0 0 0 0 with pEn := false } =
      { ring 4 .lagging 0 0 0 0 with pEn := false } ∧
    (issued .K 0x9100#16 (ring 4 .lagging 0 0 0 0)).faultCode = 0x01#8 ∧
    (issued .C 0x5000#16 { ring 4 .lagging 0 0 0 0 with faultCode := 0x01#8 }).faultCode = 0x01#8 := by decide

/-- SY-1 to SY-4. -/
theorem test_synchroniser :
    (syncHead (ring 4 .lagging 1 0 0 0)).headViewC = 1 ∧ (syncTail (ring 4 .lagging 3 3 1 3)).tailViewP = 3 ∧
    syncTEnabled (ring 4 .lagging 1 1 1 1) = false ∧ syncHEnabled (ring 4 .lagging 1 1 1 1) = false ∧
    syncHEnabled { ring 4 .lagging 1 0 0 0 with faultCode := 0x01#8 } = false := by decide

/-- A word placed in the reset state is the first command that runs: PUT, CLEAR and CRC.INIT. -/
theorem test_first_command_after_reset :
    (after (step (State.reset.withFetchWord 16 0x1041)) State.reset).head = 1 ∧
    (after (step (State.reset.withFetchWord 16 0x5000)) State.reset).faultCode = 0x03#8 ∧
    (after (step (State.reset.withFetchWord 16 0x8000)) State.reset).acc = 0xFF#8 := by decide

/-- The table of CRC8 values, and corrupted groups (95_test_vectors.md V-CRC-7). -/
theorem test_crc_values :
    crc8 [0x00#8] = 0xAC#8 ∧ crc8 [0x12#8, 0x34#8] = 0x37#8 ∧ crc8 [0x80#8, 0x00#8] = 0xA2#8 ∧
    groupValid ⟨0xBE#8, 0xEF#8, 0x92#8⟩ = true ∧ groupValid ⟨0xBE#8, 0xEE#8, 0x92#8⟩ = false ∧
    groupValid ⟨0x3E#8, 0xEF#8, 0x92#8⟩ = false := by decide +kernel

/-- Groups and frames are big-endian, and a frame's word survives its bytes (R42 to R44, R109). -/
theorem test_frames_are_big_endian :
    groupWord ⟨0xBE#8, 0xEF#8, 0x92#8⟩ = 0xBEEF#16 ∧
    groupOfWord 0xBEEF#16 = ⟨0xBE#8, 0xEF#8, 0x92#8⟩ ∧
    statusFrameValid (groupOfWord 0x6666#16) = true ∧
    (frameOfBytes [0xBE#8, 0xEF#8, 0x92#8, 0x66#8, 0x66#8, 0x93#8]).map frameValid = some true := by decide +kernel

/-! ### Witnesses: a state and operands that meet the hypotheses of each statement -/

/-- Both views lag: two bytes queued, the producer sees three and the consumer one. -/
def lagged : State := ring 4 .lagging 3 1 0 2

/-- The same block after one answered command on port P, with commands to come on each port and a schedule. -/
def withLists (s : State) : State :=
  { s with
    pc := ⟨1, 0, 0⟩
    resp := ⟨[0x00000000#32], [], []⟩
    cmds := ⟨[0x1041#16, 0x1042#16], [0x5000#16, 0x2000#16], [0x8000#16, 0x9001#16]⟩
    schedule := [.command .P, .command .C, .syncT] }

/-- A block whose next command on port C is a GET. -/
def getNext (s : State) : State := { s with cmds := ⟨[], [0x2000#16], []⟩ }

/-- An empty block of three slots, with commands of each port to come. -/
def emptyThree : State :=
  { State.powerUp ⟨3, .lagging⟩ with cmds := ⟨[0x1041#16, 0x3000#16, 0x1042#16], [0x2000#16], [0x8000#16]⟩ }

/-- Two successful PUTs, with other agents' steps between them. -/
def mixedActions : List Action :=
  [.command .P, .command .C, .syncT, .command .K, .command .P, .command .P, .syncH]

/-- A block whose one command is the given word, issued next on port P. -/
def listing (w : CmdWord) : State := { lagged with cmds := ⟨[w], [], []⟩, schedule := [.command .P] }

theorem witness_DecodeOfEncode :
    (Instr.put .P 0x00#8).wellFormed = true ∧ (Instr.free .C).wellFormed = true ∧
    (Instr.crcCheck .K 0xFF#8).wellFormed = true := by decide
theorem witness_EncodeOfDecode : decode .P 0x10FF#16 = .cmd (.put .P 0xFF#8) := by decide
theorem witness_IllegalWordsFault :
    (Ready .P lagged ∧ decode .P 0x0000#16 = .illegal .reservedOp) ∧
    (Ready .K lagged ∧ decode .K 0x9F00#16 = .illegal .reservedBits) ∧
    (Ready .C lagged ∧ decode .C 0x20FF#16 = .illegal .operandNotZero) ∧
    (Ready .C lagged ∧ decode .C 0x1000#16 = .illegal .wrongPort) := by decide
theorem witness_StepRunsTheDecodedCommand :
    ((withLists lagged).schedule = .command .P :: [.command .C, .syncT] ∧
      fetch .P (withLists lagged) = some 0x1042#16 ∧ decode .P 0x1042#16 = .cmd (.put .P 0x42#8)) ∧
    (fetch .P (listing 0x0000#16) = some 0x0000#16 ∧ decode .P 0x0000#16 = .illegal .reservedOp ∧
      (listing 0x0000#16).schedule = [.command .P] ∧ Ready .P (listing 0x0000#16)) ∧
    (∀ a, ({ lagged with schedule := [a] } : State).schedule = [a]) ∧
    (enabled .syncT { lagged with schedule := [.syncT] } = true ∧
      enabled .syncH { lagged with schedule := [.syncH] } = true) :=
  ⟨by decide, by decide, fun _ => rfl, by decide⟩
theorem witness_PlacedWordIsRun : decodeTableWord 16 0xB0FF = some (.crcCheck .K 0xFF#8) := by decide
theorem witness_StepStopsOnlyWithoutAction :
    (Inv (withLists lagged) ∧ (withLists lagged).schedule ≠ []) ∧ (Inv lagged ∧ lagged.schedule = []) := by decide
theorem witness_PutStoresAtHead :
    (Ready .P (ring 4 .coherent 3 1 0 0) ∧ (ring 4 .coherent 3 1 0 0).head < 4 ∧
      (3 + 1) % 4 ≠ readTailView (ring 4 .coherent 3 1 0 0)) ∧
    (Ready .P State.reset ∧ State.reset.head < State.reset.cfg.N ∧
      (State.reset.head + 1) % State.reset.cfg.N ≠ readTailView State.reset) ∧ 7 ≠ State.reset.head := by decide
theorem witness_PutRefusedWhenFull :
    (Ready .P (ring 2 .coherent 1 0 0 0) ∧ (1 + 1) % 2 = readTailView (ring 2 .coherent 1 0 0 0)) ∧
    (Ready .P lagged ∧ (lagged.head + 1) % lagged.cfg.N = readTailView lagged) := by decide
theorem witness_GetTakesFromTail :
    (Ready .C (ring 4 .coherent 1 3 0 0) ∧ 3 < (ring 4 .coherent 1 3 0 0).cfg.N ∧
      3 ≠ readHeadView (ring 4 .coherent 1 3 0 0)) ∧
    (Ready .C lagged ∧ lagged.tail < lagged.cfg.N ∧ lagged.tail ≠ readHeadView lagged) := by decide
theorem witness_GetRefusedWhenEmpty :
    (Ready .C State.reset ∧ State.reset.tail = readHeadView State.reset) ∧
    (Ready .C (ring 4 .lagging 1 0 0 0) ∧ 0 = readHeadView (ring 4 .lagging 1 0 0 0)) := by decide
theorem witness_SlotBeyondStorageStops :
    (Ready .P (ring 3 .lagging 3 0 0 0) ∧ 3 ≤ (ring 3 .lagging 3 0 0 0).head ∧
      (3 + 1) % 3 ≠ readTailView (ring 3 .lagging 3 0 0 0)) ∧
    (Ready .C (ring 3 .lagging 0 3 0 0) ∧ 3 ≤ (ring 3 .lagging 0 3 0 0).tail ∧
      3 ≠ readHeadView (ring 3 .lagging 0 3 0 0)) := by decide
theorem witness_AvailAnswersTheSeenCount :
    Ready .P lagged ∧ Ready .C lagged ∧ lagged.cfg.wf ∧ availOn .P lagged = some 3 ∧ availOn .C lagged = some 1 ∧
    (Params.wf ⟨65536, .coherent⟩) := by decide
theorem witness_FreeAnswersTheRest :
    Ready .P lagged ∧ Ready .C lagged ∧ lagged.cfg.wf ∧ freeOn .P lagged = some 0 ∧ freeOn .C lagged = some 2 := by
  decide
theorem witness_ClearZeroesTheIndices :
    lagged.faultCode = 0x00#8 ∧ (hostQuiesce lagged).faultCode = 0x00#8 ∧ (hostQuiesce lagged).pEn = false := by decide
theorem witness_ClearAgainstActiveProducerFaults : lagged.faultCode = 0x00#8 ∧ lagged.pEn = true := by decide
theorem witness_CrcInitStartsAtFF : Ready .K State.reset ∧ Ready .K (crcAt 0x92#8) := by decide
theorem witness_CrcFeedUpdatesTheAccumulator : Ready .K (crcAt 0xFF#8) ∧ (crcAt 0xFF#8).accValid = true := by decide
theorem witness_CrcReadAnswersTheAccumulator : Ready .K (crcAt 0x00#8) ∧ (crcAt 0x00#8).accValid = true := by decide
theorem witness_CrcCheckCompares :
    Ready .K (crcAt 0x92#8) ∧ (crcAt 0x92#8).accValid = true ∧ (crcAt 0x92#8).acc = 0x92#8 ∧
    (crcAt 0x92#8).acc ≠ 0x93#8 := by decide
theorem witness_CrcUseBeforeInitFaults :
    Ready .K State.reset ∧ State.reset.accValid = false ∧ Ready .K (crcAt 0x00#8) ∧
    (after (perform .reset (crcAt 0x00#8)) State.reset).accValid ≠ (crcAt 0x00#8).accValid ∧
    fetch .K (withLists lagged) = some 0x8000#16 ∧
    (after (perform (.command .K) (withLists lagged)) lagged).accValid ≠ (withLists lagged).accValid := by decide
theorem witness_WrongPortFaults : Ready .C lagged ∧ (Instr.put .C 0x41#8).wellFormed = false := by decide
theorem witness_QuiescentProducerIsHeld :
    (hostQuiesce (withLists lagged)).pEn = false ∧ fetch .P (hostQuiesce (withLists lagged)) = some 0x1042#16 ∧
    fetch .C (withLists lagged) = some 0x5000#16 ∧ fetch .K (withLists lagged) = some 0x8000#16 := by decide
theorem witness_FaultsArePrecise :
    answer .C 0x5000#16 lagged = some 0xFF000000#32 ∧ (0xFF000000#32 : RespWord).extractLsb' 24 8 = 0xFF#8 ∧
    answer .C 0x2000#16 { lagged with faultCode := 0x02#8 } = some 0xFF000000#32 := by decide
theorem witness_FaultedBlockAnswersFault :
    ({ lagged with faultCode := 0x03#8 } : State).faultCode ≠ 0x00#8 ∧ lagged.pEn = true ∧
    (hostQuiesce { lagged with faultCode := 0x03#8 }).pEn = false := by decide
theorem witness_TestsStandInOrder :
    (Inv (hostQuiesce lagged) ∧ (hostQuiesce lagged).pEn = false) ∧
    (Inv (syncTail { lagged with faultCode := 0x02#8 }) ∧ Inv lagged) ∧
    (Ready .K lagged ∧ decode .K 0x9100#16 = .illegal .reservedBits) ∧
    (Ready .C lagged ∧ decode .C 0x5000#16 = .cmd (.clear .C) ∧ lagged.pEn = true) ∧
    (decode .K 0xA000#16 = .cmd (.crcRead .K) ∧ lagged.accValid = false) ∧
    (Ready .P lagged ∧ decode .P 0x1041#16 = .cmd (.put .P 0x41#8)) :=
  ⟨by decide, by decide, by decide, by decide, by decide, by decide⟩
theorem witness_FaultCodeIsSticky :
    (perform .reset lagged = .next (hostReset lagged)) ∧
    (∃ t, perform (.command .K) { withLists lagged with faultCode := 0x01#8 } = .next t) ∧
    ∃ t, perform (.command .C) (withLists lagged) = .next t ∧ t.faultCode ≠ (withLists lagged).faultCode :=
  ⟨rfl, ⟨_, rfl⟩, _, rfl, by decide⟩
theorem witness_EveryCommandHasOneOutcome : Inv lagged ∧ Inv (withLists (ring 2 .coherent 1 0 0 0)) := by decide
theorem witness_PowerUpIsLegal : Params.wf ⟨2, .lagging⟩ ∧ Params.wf ⟨65536, .coherent⟩ := by decide
theorem witness_StepKeepsTheInvariant :
    Inv (withLists (ring 4 .lagging 2 1 1 1)) ∧ ∃ t, step (withLists (ring 4 .lagging 2 1 1 1)) = .next t ∧ t.head = 3 :=
  ⟨by decide, _, rfl, rfl⟩
theorem witness_ViewsBoundOccupancy :
    (Inv lagged ∧ emptySeen lagged = false) ∧ Inv (ring 4 .coherent 2 3 0 0) ∧
    (Inv (ring 4 .lagging 2 1 1 2) ∧ fullSeen (ring 4 .lagging 2 1 1 2) = false ∧
      0 < availableTrue (ring 4 .lagging 2 1 1 2)) := ⟨by decide, by decide, by decide⟩
theorem witness_SeenCountsBracketTheTrueOnes : Inv lagged ∧ Inv (ring 2 .lagging 1 0 0 0) := by decide
theorem witness_CountsForetellRefusals :
    (Inv lagged ∧ Ready .P lagged) ∧ (Inv (ring 4 .lagging 1 0 0 0) ∧ Ready .P (ring 4 .lagging 1 0 0 0)) := by decide
theorem witness_IndexWidthIsLeast : Inv lagged ∧ lagged.cfg.N ≤ 2 ^ 2 ∧ Inv (ring 2 .lagging 1 0 0 0) := by decide
theorem witness_GetReadsAWrittenSlot : Inv lagged ∧ Ready .C lagged ∧ lagged.tail ≠ readHeadView lagged := by decide
theorem witness_OnlyPutAndGetMoveBytes :
    (Inv (withLists (ring 4 .lagging 2 1 1 1)) ∧ ∃ t, perform (.command .P) (withLists (ring 4 .lagging 2 1 1 1)) = .next t ∧
      fetch .P (withLists (ring 4 .lagging 2 1 1 1)) = some (encode (.put .P 0x42#8)) ∧
      newResponse .P (withLists (ring 4 .lagging 2 1 1 1)) t = some 0x00000000#32) ∧
    (Inv (getNext lagged) ∧ ∃ t, perform (.command .C) (getNext lagged) = .next t ∧
      fetch .C (getNext lagged) = some 0x2000#16 ∧ newResponse .C (getNext lagged) t = some 0x00000041#32) ∧
    (Inv (hostQuiesce (withLists lagged)) ∧ ∃ t, perform (.command .C) (hostQuiesce (withLists lagged)) = .next t ∧
      fetch .C (hostQuiesce (withLists lagged)) = some 0x5000#16 ∧
      newResponse .C (hostQuiesce (withLists lagged)) t = some 0x00000000#32) ∧
    (∃ t, perform .reset (withLists lagged) = .next t) ∧
    (Inv (withLists lagged) ∧ ∃ t, perform (.command .P) (withLists lagged) = .next t ∧
      newResponse .P (withLists lagged) t = some 0x01000000#32) :=
  ⟨⟨by decide, _, rfl, by decide, by decide⟩, ⟨by decide, _, rfl, by decide, by decide⟩,
    ⟨by decide, _, rfl, by decide, by decide⟩, ⟨_, rfl⟩, by decide, _, rfl, by decide⟩
theorem witness_BytesLeaveInOrder :
    Inv (withLists (ring 4 .coherent 2 2 0 0)) ∧ queue (withLists (ring 4 .coherent 2 2 0 0)) = [] ∧
    (observe [.command .P, .command .C] (withLists (ring 4 .coherent 2 2 0 0)) ⟨[], []⟩).2.puts = [0x42#8] := by decide
theorem witness_FullAndEmptyAreToldApart :
    (Inv emptyThree ∧ emptyThree.head = 0 ∧ emptyThree.tail = 0 ∧ emptyThree.tailViewP = 0 ∧
      (observe mixedActions emptyThree ⟨[], []⟩).2.gets = [] ∧
      (observe mixedActions emptyThree ⟨[], []⟩).2.puts.length = emptyThree.cfg.N - 1 ∧
      Ready .P (observe mixedActions emptyThree ⟨[], []⟩).1) ∧
    (Inv (State.powerUp ⟨4, .lagging⟩) ∧ Ready .P (State.powerUp ⟨4, .lagging⟩) ∧
      ([0x41#8, 0x42#8, 0x43#8] : List Byte).length = (State.powerUp ⟨4, .lagging⟩).cfg.N - 1) ∧
    (Inv (ring 4 .lagging 2 2 1 2) ∧ Ready .C (ring 4 .lagging 2 2 1 2)) := ⟨by decide, by decide, by decide⟩
theorem witness_ClearProtocolEmptiesTheBuffer :
    Inv (withLists lagged) ∧ (withLists lagged).faultCode = 0x00#8 ∧ fetch .C (withLists lagged) = some 0x5000#16 := by
  decide
theorem witness_EachIndexHasOneWriter :
    (∃ t, perform (.command .P) (withLists (ring 4 .lagging 2 1 1 1)) = .next t ∧ t.head ≠ 2) ∧
    (∃ t, perform (.command .C) (hostQuiesce (withLists lagged)) = .next t ∧ t.head ≠ 3 ∧ t.tail ≠ 1 ∧ t.headViewC ≠ 2) ∧
    (∃ t, perform .syncT lagged = .next t ∧ t.tailViewP ≠ 0) ∧ (∃ t, perform .syncH lagged = .next t ∧ t.headViewC ≠ 2) ∧
    ∃ t, perform .quiesce lagged = .next t ∧ t.pEn ≠ true :=
  ⟨⟨_, rfl, by decide⟩, ⟨_, rfl, by decide⟩, ⟨_, rfl, by decide⟩, ⟨_, rfl, by decide⟩, _, rfl, by decide⟩
theorem witness_PortsSeeOnlyTheirViews :
    lagged.cfg.viewMode = .lagging ∧ (∃ t, issue .P 0x1041#16 lagged = .next t) ∧
    ∃ t, issue .C 0x2000#16 lagged = .next t ∧ (0x2000#16 : CmdWord) ≠ 0x5000#16 := ⟨rfl, ⟨_, rfl⟩, _, rfl, by decide⟩
theorem witness_UnitsAreIndependent :
    (∃ t, issue .C 0x2000#16 lagged = .next t ∧ t.tail = 2) ∧ ∃ t, issue .K 0x8000#16 lagged = .next t ∧ t.acc = 0xFF#8 :=
  ⟨⟨_, rfl, rfl⟩, _, rfl, rfl⟩
theorem witness_QueriesRepeat :
    (∃ t, exec (.avail .C) lagged = .next t) ∧ (∃ t, exec (.free .P) lagged = .next t) ∧
    ∃ t, exec (.crcRead .K) lagged = .next t ∧ t.faultCode = 0x02#8 := ⟨⟨_, rfl⟩, ⟨_, rfl⟩, _, rfl, rfl⟩
theorem witness_SynchroniserCopiesWholeIndices :
    enabled .syncT lagged = true ∧ enabled .syncH lagged = true ∧ enabled .syncT (ring 4 .coherent 3 1 0 0) = false ∧
    enabled .syncH { lagged with faultCode := 0x01#8 } = false := by decide
theorem witness_LaggingSimulatesCoherent :
    (withLists (ring 4 .coherent 2 1 0 0)).cfg.viewMode = .coherent ∧
    ∃ t, perform (.command .P) (withLists (ring 4 .coherent 2 1 0 0)) = .next t ∧ t.head = 3 := ⟨rfl, _, rfl, rfl⟩

/-- The run in which only SYNC_T is ever taken, from a state whose view of `tail` lags: the view is current after one
step and `tail` never changes. -/
theorem syncT_forever (k : Nat) :
    trajectory (fun _ => .syncT) lagged k = (if k = 0 then lagged else { lagged with tailViewP := 1 }) := by
  induction k with
  | zero => rfl
  | succ k ih => rw [trajectory, ih]; cases k <;> rfl

/-- The same with SYNC_H. -/
theorem syncH_forever (k : Nat) :
    trajectory (fun _ => .syncH) lagged k = (if k = 0 then lagged else { lagged with headViewC := 3 }) := by
  induction k with
  | zero => rfl
  | succ k ih => rw [trajectory, ih]; cases k <;> rfl

theorem witness_ViewsCatchUp :
    Inv lagged ∧ lagged.cfg.viewMode = .lagging ∧
    (WeaklyFair .syncT (fun _ => .syncT) lagged ∧ ∀ m, 0 ≤ m →
      (trajectory (fun _ => .syncT) lagged m).tail = (trajectory (fun _ => .syncT) lagged 0).tail ∧
      (trajectory (fun _ => .syncT) lagged m).faultCode = 0x00#8) ∧
    (WeaklyFair .syncH (fun _ => .syncH) lagged ∧ ∀ m, 0 ≤ m →
      (trajectory (fun _ => .syncH) lagged m).head = (trajectory (fun _ => .syncH) lagged 0).head ∧
      (trajectory (fun _ => .syncH) lagged m).faultCode = 0x00#8) := by
  refine ⟨by decide, rfl, ⟨fun k _ => ⟨k, Nat.le_refl k, rfl⟩, fun m _ => ?_⟩, fun k _ => ⟨k, Nat.le_refl k, rfl⟩,
    fun m _ => ?_⟩
  · rw [syncT_forever, syncT_forever]; split <;> exact ⟨rfl, rfl⟩
  · rw [syncH_forever, syncH_forever]; split <;> exact ⟨rfl, rfl⟩

theorem witness_CrcIsAffine : ([0xBE#8, 0xEF#8] : List Byte).length = ([0x01#8, 0x80#8] : List Byte).length := by decide
theorem witness_SingleBitErrorsAreDetected :
    0 < 24 ∧ 23 < 24 ∧ groupValid ⟨(0xBEEF92#24).extractLsb' 16 8, (0xBEEF92#24).extractLsb' 8 8,
      (0xBEEF92#24).extractLsb' 0 8⟩ = true := by decide +kernel
theorem witness_CrcOfComputesTheCrc : Ready .K State.reset := by decide
theorem witness_GroupCheckDecidesValidity : Ready .K (crcAt 0x31#8) := by decide
theorem witness_FrameCheckDecidesValidity : Ready .K (crcAt 0x93#8) := by decide
theorem witness_AccumulatorCarriesOver : Ready .K (withLists lagged) := by decide
theorem witness_ResetSetsEveryElement : lagged.cfg.viewMode = .lagging := by decide
theorem witness_AfterResetBufferIsEmpty :
    ∃ t, lagged.cfg.wf ∧ perform .reset { lagged with faultCode := 0x03#8 } = .next t := ⟨_, by decide, rfl⟩
theorem witness_SuccessfulEndsAreFinal :
    successfulEnd State.reset = true ∧ agentCanStep State.reset = false ∧ agentCanStep lagged = true ∧
    (agentCanStep (hostQuiesce { State.reset with cmds := ⟨[0x1041#16], [], []⟩ }) = false ∧
      failedEnd (hostQuiesce { State.reset with cmds := ⟨[0x1041#16], [], []⟩ }) = true) := by decide

end Sys2Proof.Tests
end

section
/-! PROOFS. The statements of 00_scope.md: the index width of rule R4 and the conformance vectors of rule R2. -/

namespace Sys2Proof

/-- The width of rule R4 for a block of two slots or more: `ceil(log2 N)`, in the form without the special case that
`Params.idxW` makes for a block with no index to tell apart. -/
theorem Params.idxW_eq (c : Params) (hN : 2 ≤ c.N) : c.idxW = Nat.log2 (c.N - 1) + 1 := by
  have hspecial : ¬ c.N ≤ 1 := by omega
  simp [Params.idxW, hspecial]

/-- What R4's `ceil(log2 N)` means: a width is at least `IDX_W` exactly when it has a code for each of the `N` slots. -/
theorem Params.idxW_le_iff (c : Params) (hN : 2 ≤ c.N) (k : Nat) : c.idxW ≤ k ↔ c.N ≤ 2 ^ k := by
  have hlog : (c.N - 1).log2 < k ↔ c.N - 1 < 2 ^ k := Nat.log2_lt (by omega)
  rw [c.idxW_eq hN]
  omega

/-- Every slot's index fits in `IDX_W` bits (R4). -/
theorem Params.lt_two_pow_idxW (c : Params) (hN : 2 ≤ c.N) (i : Nat) (hi : i < c.N) : i < 2 ^ c.idxW :=
  calc i < c.N := hi
    _ ≤ 2 ^ c.idxW := (c.idxW_le_iff hN c.idxW).mp le_rfl

/-- No width that has a code for each slot is smaller than `IDX_W` (R4). -/
theorem Params.idxW_least (c : Params) (hN : 2 ≤ c.N) (k : Nat) (hk : c.N ≤ 2 ^ k) : c.idxW ≤ max 1 k :=
  ((c.idxW_le_iff hN k).mpr hk).trans (Nat.le_max_right 1 k)

end Sys2Proof

namespace Sys2Proof.Machine

open Sys2Proof

/-- Settles O36: R35 puts each index and view below `N`, and `IDX_W` bits hold every number below `N`. -/
theorem indexWidthIsLeast : Obligations.IndexWidthIsLeast := by
  intro s hinv
  obtain ⟨⟨hN, -⟩, ⟨hhead, htail, htailView, hheadView, -⟩, -⟩ := hinv
  have hfits := s.cfg.lt_two_pow_idxW hN
  exact ⟨hfits _ hhead, hfits _ htail, hfits _ htailView, hfits _ hheadView, s.cfg.idxW_least hN⟩

/-- The CRC of the empty sequence is the initial value (R102). -/
@[simp] theorem crc8_nil : crc8 [] = 0xFF#8 := rfl

/-- The source's conformance vector, byte by byte as V-CRC-1 of 95_test_vectors.md traces it. -/
theorem crc8_conformance : crc8 [0xBE#8, 0xEF#8] = 0x92#8 := by
  have fed_BE : crc8Update 0xFF#8 0xBE#8 = 0x0C#8 := by decide
  have fed_EF : crc8Update 0x0C#8 0xEF#8 = 0x92#8 := by decide
  simp only [crc8, List.foldl_cons, List.foldl_nil, fed_BE, fed_EF]

/-- The check value of the parameter set: the CRC of the ASCII digits "1" to "9" (R102), byte by byte. -/
theorem crc8_checkValue :
    crc8 [0x31#8, 0x32#8, 0x33#8, 0x34#8, 0x35#8, 0x36#8, 0x37#8, 0x38#8, 0x39#8] = 0xF7#8 := by
  have fed_31 : crc8Update 0xFF#8 0x31#8 = 0x58#8 := by decide
  have fed_32 : crc8Update 0x58#8 0x32#8 = 0x60#8 := by decide
  have fed_33 : crc8Update 0x60#8 0x33#8 = 0x2D#8 := by decide
  have fed_34 : crc8Update 0x2D#8 0x34#8 = 0xCB#8 := by decide
  have fed_35 : crc8Update 0xCB#8 0x35#8 = 0x9D#8 := by decide
  have fed_36 : crc8Update 0x9D#8 0x36#8 = 0x16#8 := by decide
  have fed_37 : crc8Update 0x16#8 0x37#8 = 0xB7#8 := by decide
  have fed_38 : crc8Update 0xB7#8 0x38#8 = 0x54#8 := by decide
  have fed_39 : crc8Update 0x54#8 0x39#8 = 0xF7#8 := by decide
  simp only [crc8, List.foldl_cons, List.foldl_nil, fed_31, fed_32, fed_33, fed_34, fed_35, fed_36,
    fed_37, fed_38, fed_39]

/-- Settles O49, from the traces of the two vectors. -/
theorem crcConformanceVectors : Obligations.CrcConformanceVectors :=
  ⟨crc8_conformance, crc8_checkValue, crc8_nil⟩

end Sys2Proof.Machine
end

section
/-! PROOFS. The statements of 10_state.md: the legal states and what keeps them, who writes which element, and the two
view modes. First the facts these rest on: the word of a decoded command, the synchroniser's steps, and that the
effects listed for a command are exactly what issuing its word does. -/

namespace Sys2Proof

/-- The command an operation code stands for has that code, and takes the byte operand or has none (R60, R61). -/
theorem commandOf_fields (p : Port) (op : BitVec 4) (imm : Byte) (i : Instr) (h : commandOf p op imm = some i) :
    i.opcode = op ∧ i.imm = if i.takesOperand then imm else 0#8 := by
  unfold commandOf at h
  split_ifs at h <;> cases h <;> exact ⟨Eq.symm ‹_›, rfl⟩

/-- The word a command was decoded from is the command's own word (R67, R68). -/
theorem encode_eq_of_decode (p : Port) (w : CmdWord) (i : Instr) (h : decode p w = .cmd i) : encode i = w := by
  unfold decode at h
  split at h
  · cases h
  · rename_i j hj
    obtain ⟨hop, himm⟩ := commandOf_fields _ _ _ _ hj
    split_ifs at h with hrsv hoperand hport
    cases h
    have hrsv0 : rsvField w = 0#4 := not_not.mp hrsv
    have himm' : i.imm = immField w := by
      rw [himm]
      split_ifs with htakes
      · rfl
      · by_contra hne
        exact hoperand ⟨by simpa using htakes, Ne.symm hne⟩
    rw [encode, hop, himm', ← hrsv0, wordOf_eta]

/-- The one word of CLEAR (R68). -/
theorem eq_of_decode_clear (p q : Port) (w : CmdWord) (h : decode p w = .cmd (.clear q)) : w = 0x5000#16 :=
  (encode_eq_of_decode p w _ h).symm.trans (show wordOf 0x5#4 0#4 0#8 = 0x5000#16 by decide)

/-- The one word of CRC.INIT (R68). -/
theorem eq_of_decode_crcInit (p q : Port) (w : CmdWord) (h : decode p w = .cmd (.crcInit q)) : w = 0x8000#16 :=
  (encode_eq_of_decode p w _ h).symm.trans (show wordOf 0x8#4 0#4 0#8 = 0x8000#16 by decide)

end Sys2Proof

namespace Sys2Proof.Machine

open Sys2Proof

/-! ### The synchroniser's steps (R27) -/

theorem syncTEnabled_iff (s : State) :
    syncTEnabled s = true ↔ s.cfg.viewMode = .lagging ∧ s.tailViewP ≠ s.tail ∧ s.faultCode = 0x00#8 := by
  simp [syncTEnabled, and_assoc]

theorem syncHEnabled_iff (s : State) :
    syncHEnabled s = true ↔ s.cfg.viewMode = .lagging ∧ s.headViewC ≠ s.head ∧ s.faultCode = 0x00#8 := by
  simp [syncHEnabled, and_assoc]

theorem syncTail_of_enabled (s : State) (h : syncTEnabled s = true) : syncTail s = { s with tailViewP := s.tail } :=
  if_pos h

theorem syncHead_of_enabled (s : State) (h : syncHEnabled s = true) : syncHead s = { s with headViewC := s.head } :=
  if_pos h

theorem syncTail_of_not_enabled (s : State) (h : syncTEnabled s = false) : syncTail s = s :=
  if_neg (by simp [h])

theorem syncHead_of_not_enabled (s : State) (h : syncHEnabled s = false) : syncHead s = s :=
  if_neg (by simp [h])

/-- Settles O46, by the two synchroniser steps' own lemmas. -/
theorem synchroniserCopiesWholeIndices : Obligations.SynchroniserCopiesWholeIndices := fun s =>
  ⟨syncTEnabled_iff s, syncHEnabled_iff s,
    fun h => congrArg Host.Outcome.next (syncTail_of_enabled s h),
    fun h => congrArg Host.Outcome.next (syncHead_of_enabled s h),
    fun h => congrArg Host.Outcome.next (syncTail_of_not_enabled s h),
    fun h => congrArg Host.Outcome.next (syncHead_of_not_enabled s h)⟩

/-! ### The effects of a command are exactly what issuing its word does -/

/-- Before CRC.INIT the three other CRC commands fault with code 0x02 (R31, R104 to R106). -/
theorem exec_crc_uninitialised (i : Instr) (b : Byte) (s : State) (hr : Ready .K s) (hv : s.accValid = false)
    (hi : i = .crcFeed .K b ∨ i = .crcRead .K ∨ i = .crcCheck .K b) :
    exec i s = .next (answered .K 0xFF000000#32 { s with faultCode := 0x02#8 }) := by
  have hraise (body : State → State) :
      withAcc .K s body = answered .K 0xFF000000#32 { s with faultCode := 0x02#8 } := by
    rw [(withAcc_spec _ _ _).2 hv, raiseFault_unfaulted _ _ _ hr.1, causeCode]
  obtain rfl | rfl | rfl := hi
  · rw [exec, execCrcFeed, runCommand_ready (.crcFeed .K b) s _ hr rfl, hraise]
  · rw [exec, execCrcRead, runCommand_ready (.crcRead .K) s _ hr rfl, hraise]
  · rw [exec, execCrcCheck, runCommand_ready (.crcCheck .K b) s _ hr rfl, hraise]

/-- CRC.INIT on a ready port (R103). -/
theorem exec_crcInit (s : State) (hr : Ready .K s) :
    exec (.crcInit .K) s = .next (answered .K 0x00000000#32 { s with acc := 0xFF#8, accValid := true }) := by
  rw [exec, execCrcInit, runCommand_ready (.crcInit .K) s _ hr rfl, complete_eq_answered, respWord_ok]

theorem issue_of_decode (p : Port) (w : CmdWord) (i : Instr) (s : State) (h : decode p w = .cmd i) :
    issue p w s = exec i s := by
  simp only [issue, h]

/-- What a ready port's word raises, on each of its three grounds (R123, R124). -/
theorem issue_of_raises (p : Port) (w : CmdWord) (s : State) (c : Cause) (hr : Ready p s) (hc : Raises p w s c) :
    issue p w s = .next (answered p 0xFF000000#32 { s with faultCode := causeCode c }) := by
  obtain ⟨⟨why, hd⟩, rfl⟩ | ⟨hd, he, rfl⟩ | ⟨⟨b, hd⟩, hv, rfl⟩ := hc
  · simp only [issue, hd]
    exact runIllegal_ready p s hr
  · obtain rfl : Port.C = p := (decode_cmd p w _ hd).1
    rw [issue_of_decode _ _ _ s hd, exec, execClear, runCommand_ready (.clear .C) s _ hr rfl, if_pos he,
      raiseFault_unfaulted _ _ _ hr.1]
  · obtain ⟨i, hdi, hi⟩ : ∃ i, decode p w = .cmd i ∧ (i = .crcFeed .K b ∨ i = .crcRead .K ∨ i = .crcCheck .K b) := by
      obtain h | h | h := hd
      · exact ⟨_, h, .inl rfl⟩
      · exact ⟨_, h, .inr (.inl rfl)⟩
      · exact ⟨_, h, .inr (.inr rfl)⟩
    obtain rfl : Port.K = p := by
      rw [← (decode_cmd p w i hdi).1]
      obtain rfl | rfl | rfl := hi <;> rfl
    rw [issue_of_decode _ _ _ s hdi]
    exact exec_crc_uninitialised i b s hr hv hi

/-- Each listed effect happens: the converse of `issue_effect`. -/
theorem CommandEffect.issue_eq {p : Port} {w : CmdWord} {s t : State} (h : CommandEffect p w s t) :
    issue p w s = .next t := by
  cases h with
  | held h => exact (issue_gate p w s).1 h
  | faulted h hf => exact (issue_gate p w s).2 h hf
  | raised hr c hc => exact issue_of_raises p w s c hr hc
  | putFull hr hp b hd hf =>
    subst hp
    rw [issue_of_decode _ _ _ s hd, exec, execPut, runCommand_ready (.put .P b) s _ hr rfl, if_pos hf,
      complete_eq_answered, respWord_full]
  | put hr hp b hd hf hh =>
    subst hp
    rw [issue_of_decode _ _ _ s hd, exec, execPut, runCommand_ready (.put .P b) s _ hr rfl]
    simp [hf, memWrite, hh, complete_eq_answered]
  | getEmpty hr hp hd he =>
    subst hp
    rw [issue_of_decode _ _ _ s hd, exec, execGet, runCommand_ready (.get .C) s _ hr rfl, if_pos he,
      complete_eq_answered, respWord_empty]
  | get hr hp hd he ht =>
    subst hp
    rw [issue_of_decode _ _ _ s hd, exec, execGet, runCommand_ready (.get .C) s _ hr rfl]
    simp [he, memRead, ht, complete_eq_answered]
  | count hr n hd =>
    obtain ⟨hd, hn⟩ | ⟨hd, hn⟩ := hd
    · rw [issue_of_decode _ _ _ s hd, exec, execAvail, runCommand_ready (.avail p) s _ hr (decode_cmd _ _ _ hd).2, hn,
        answerCount, complete_eq_answered]
    · rw [issue_of_decode _ _ _ s hd, exec, execFree, runCommand_ready (.free p) s _ hr (decode_cmd _ _ _ hd).2, hn,
        answerCount, complete_eq_answered]
  | clear hr hp hd he =>
    subst hp
    rw [issue_of_decode _ _ _ s hd, exec, execClear, runCommand_ready (.clear .C) s _ hr rfl]
    simp [he, complete_eq_answered]
  | crcInit hr hp hd =>
    subst hp
    rw [issue_of_decode _ _ _ s hd, exec_crcInit s hr]
  | crcFeed hr hp b hd hv =>
    subst hp
    rw [issue_of_decode _ _ _ s hd, exec, execCrcFeed, runCommand_ready (.crcFeed .K b) s _ hr rfl,
      (withAcc_spec _ _ _).1 hv, complete_eq_answered, respWord_ok_byte]
  | crcRead hr hp hd hv =>
    subst hp
    rw [issue_of_decode _ _ _ s hd, exec, execCrcRead, runCommand_ready (.crcRead .K) s _ hr rfl,
      (withAcc_spec _ _ _).1 hv, complete_eq_answered, respWord_ok_byte]
  | crcCheckOk hr hp hd hv =>
    subst hp
    rw [issue_of_decode _ _ _ s hd, exec, execCrcCheck, runCommand_ready (.crcCheck .K s.acc) s _ hr rfl,
      (withAcc_spec _ _ _).1 hv, if_pos rfl, complete_eq_answered, respWord_ok_byte]
  | crcCheckMismatch hr hp c hd hc hv =>
    subst hp
    rw [issue_of_decode _ _ _ s hd, exec, execCrcCheck, runCommand_ready (.crcCheck .K c) s _ hr rfl,
      (withAcc_spec _ _ _).1 hv, if_neg hc, complete_eq_answered, respWord_mismatch_byte]

/-- A port's next command, taken: the action is the issue of the word at the port's index (R32). -/
theorem perform_command_of_fetch (p : Port) (w : CmdWord) (s : State) (h : fetch p s = some w) :
    perform (.command p) s = issue p w s := by
  simp only [perform, h]

/-- A port whose list has ended has no step (R32, log entry 4). -/
theorem perform_command_of_no_fetch (p : Port) (s : State) (h : fetch p s = none) :
    perform (.command p) s = .next s := by
  simp only [perform, h]

end Sys2Proof.Machine
end

section
/-! PROOFS. 10_state.md: what a command can write, element by element, and who writes each element (R25, R31, R34). -/

namespace Sys2Proof.Machine

open Sys2Proof

/-! ### What a command can write -/

section

variable {p : Port} {w : CmdWord} {s t : State}

/-- The word of CLEAR, issued while the producer is quiescent: the one command that writes what its port does not own
(R25, R85). -/
def QuiescentClear (p : Port) (w : CmdWord) (s : State) : Prop := p = .C ∧ w = 0x5000#16 ∧ s.pEn = false

theorem CommandEffect.pEn_eq (h : CommandEffect p w s t) : t.pEn = s.pEn := by
  cases h with
  | clear => simp
  | _ => rfl

/-- `head` is written by PUT, and by CLEAR with 0. -/
theorem CommandEffect.head_eq (h : CommandEffect p w s t) :
    t.head = s.head ∨ p = .P ∨ (QuiescentClear p w s ∧ t.head = 0) := by
  cases h with
  | put hr hp => exact .inr (.inl hp)
  | clear hr hp hd he => exact .inr (.inr ⟨⟨hp, eq_of_decode_clear _ _ _ hd, he⟩, by simp⟩)
  | _ => exact .inl rfl

/-- `tail` is written by GET and by CLEAR. -/
theorem CommandEffect.tail_eq (h : CommandEffect p w s t) : t.tail = s.tail ∨ p = .C := by
  cases h with
  | get hr hp => exact .inr hp
  | clear hr hp => exact .inr hp
  | _ => exact .inl rfl

/-- The views are written by CLEAR alone, with 0 and in `lagging` mode. -/
theorem CommandEffect.views_eq (h : CommandEffect p w s t) :
    (t.tailViewP = s.tailViewP ∧ t.headViewC = s.headViewC) ∨
      (QuiescentClear p w s ∧ s.cfg.viewMode = .lagging ∧ t.tailViewP = 0 ∧ t.headViewC = 0) := by
  cases h with
  | clear hr hp hd he =>
    by_cases hm : s.cfg.viewMode = .lagging
    · exact .inr ⟨⟨hp, eq_of_decode_clear _ _ _ hd, he⟩, hm, by simp [hm], by simp [hm]⟩
    · exact .inl ⟨by simp [hm], by simp [hm]⟩
  | _ => exact .inl ⟨rfl, rfl⟩

/-- `acc_valid` is written by CRC.INIT alone, with 1. -/
theorem CommandEffect.accValid_eq (h : CommandEffect p w s t) :
    t.accValid = s.accValid ∨ (p = .K ∧ w = 0x8000#16 ∧ t.accValid = true) := by
  cases h with
  | crcInit hr hp hd => exact .inr ⟨hp, eq_of_decode_crcInit _ _ _ hd, rfl⟩
  | clear => exact .inl (by simp)
  | _ => exact .inl rfl

theorem causeCode_mem (c : Cause) :
    causeCode c = 0x01#8 ∨ causeCode c = 0x02#8 ∨ causeCode c = 0x03#8 := by
  cases c <;> decide

/-- `fault_code` is written by fault entry alone, while it is 0 (R121). -/
theorem CommandEffect.faultCode_eq (h : CommandEffect p w s t) :
    t.faultCode = s.faultCode ∨
      (s.faultCode = 0x00#8 ∧ newResponse p s t = some 0xFF000000#32 ∧
        (t.faultCode = 0x01#8 ∨ t.faultCode = 0x02#8 ∨ t.faultCode = 0x03#8)) := by
  cases h with
  | raised hr c hc => exact .inr ⟨hr.1, newResponse_answered _ _ _ _ rfl, causeCode_mem c⟩
  | clear => exact .inl (by simp)
  | _ => exact .inl rfl

end

/-! ### The statements about writers -/

/-- Which actions write `acc_valid` (R31). -/
theorem perform_accValid (a : Action) (s t : State) (h : perform a s = .next t) (hne : t.accValid ≠ s.accValid) :
    a = .reset ∨ (a = .command .K ∧ fetch .K s = some 0x8000#16 ∧ t.accValid = true) := by
  cases perform_effect a s t h with
  | command p w t hw he =>
    obtain hsame | ⟨rfl, rfl, hset⟩ := he.accValid_eq
    · exact absurd hsame hne
    · exact .inr ⟨rfl, hw, hset⟩
  | reset => exact .inl rfl
  | none => exact absurd rfl hne
  | syncT => exact absurd (syncTail_accValid s) hne
  | syncH => exact absurd (syncHead_accValid s) hne
  | quiesce => exact absurd rfl hne
  | resume => exact absurd rfl hne

/-- Settles O23: the test of `acc_valid` that the three commands begin with, and CRC.INIT and RESET as its writers. -/
theorem crcUseBeforeInitFaults : Obligations.CrcUseBeforeInitFaults := by
  refine ⟨fun s b hr hv i hi => exec_crc_uninitialised i b s hr hv hi,
    fun s hr => ⟨_, exec_crcInit s hr, rfl⟩, fun a s t h => ⟨?_, perform_accValid a s t h⟩⟩
  rintro rfl
  cases h
  exact hostReset_accValid s

/-- Which actions write `fault_code` (R34). -/
theorem perform_faultCode (a : Action) (s t : State) (h : perform a s = .next t) (hne : t.faultCode ≠ s.faultCode) :
    a = .reset ∨ ∃ p, a = .command p ∧ s.faultCode = 0x00#8 ∧ newResponse p s t = some 0xFF000000#32 ∧
      (t.faultCode = 0x01#8 ∨ t.faultCode = 0x02#8 ∨ t.faultCode = 0x03#8) := by
  cases perform_effect a s t h with
  | command p w t hw he =>
    obtain hsame | hraised := he.faultCode_eq
    · exact absurd hsame hne
    · exact .inr ⟨p, rfl, hraised⟩
  | reset => exact .inl rfl
  | none => exact absurd rfl hne
  | syncT => exact absurd (syncTail_faultCode s) hne
  | syncH => exact absurd (syncHead_faultCode s) hne
  | quiesce => exact absurd rfl hne
  | resume => exact absurd rfl hne

/-- Settles O29: the writers of `fault_code` are RESET and fault entry, and fault entry finds it 0. -/
theorem faultCodeIsSticky : Obligations.FaultCodeIsSticky := by
  intro a s t h
  refine ⟨?_, fun hnreset hfaulted => ?_, perform_faultCode a s t h⟩
  · rintro rfl
    cases h
    exact hostReset_faultCode s
  · by_contra hne
    obtain hreset | ⟨_, _, hzero, _⟩ := perform_faultCode a s t h hne
    · exact hnreset hreset
    · exact hfaulted hzero

/-- Which commands write an index, a view or the enable (R25, R26). -/
theorem CommandEffect.writers {p : Port} {w : CmdWord} {s t : State} (he : CommandEffect p w s t)
    (hw : fetch p s = some w) :
    (t.head ≠ s.head → p = .P ∨ (p = .C ∧ fetch .C s = some 0x5000#16 ∧ s.pEn = false ∧ t.head = 0)) ∧
    (t.tail ≠ s.tail → p = .C) ∧
    (t.tailViewP ≠ s.tailViewP → s.cfg.viewMode = .lagging ∧ t.tailViewP = 0 ∧
      p = .C ∧ fetch .C s = some 0x5000#16 ∧ s.pEn = false) ∧
    (t.headViewC ≠ s.headViewC → s.cfg.viewMode = .lagging ∧ t.headViewC = 0 ∧
      p = .C ∧ fetch .C s = some 0x5000#16 ∧ s.pEn = false) := by
  refine ⟨fun hne => ?_, he.tail_eq.resolve_left, fun hne => ?_, fun hne => ?_⟩
  · obtain hsame | hP | ⟨⟨rfl, rfl, hq⟩, h0⟩ := he.head_eq
    · exact absurd hsame hne
    · exact .inl hP
    · exact .inr ⟨rfl, hw, hq, h0⟩
  · obtain ⟨hsame, -⟩ | ⟨⟨rfl, rfl, hq⟩, hlag, h0, -⟩ := he.views_eq
    · exact absurd hsame hne
    · exact ⟨hlag, h0, rfl, hw, hq⟩
  · obtain ⟨-, hsame⟩ | ⟨⟨rfl, rfl, hq⟩, hlag, -, h0⟩ := he.views_eq
    · exact absurd hsame hne
    · exact ⟨hlag, h0, rfl, hw, hq⟩

/-- Settles O42: each action's writes, element by element. -/
theorem eachIndexHasOneWriter : Obligations.EachIndexHasOneWriter := by
  intro a s t h
  cases perform_effect a s t h with
  | none => simp
  | command p w t hw he =>
    obtain ⟨hhead, htail, htv, hhv⟩ := he.writers hw
    refine ⟨fun hne => ?_, fun hne => .inr (congrArg _ (htail hne)), fun hne => ?_, fun hne => ?_,
      fun hne => absurd he.pEn_eq hne⟩
    · obtain rfl | ⟨rfl, hclear⟩ := hhead hne
      · exact .inr (.inl rfl)
      · exact .inr (.inr ⟨rfl, hclear⟩)
    · obtain ⟨hlag, h0, rfl, hclear⟩ := htv hne
      exact ⟨hlag, .inr ⟨h0, .inr ⟨rfl, hclear⟩⟩⟩
    · obtain ⟨hlag, h0, rfl, hclear⟩ := hhv hne
      exact ⟨hlag, .inr ⟨h0, .inr ⟨rfl, hclear⟩⟩⟩
  | syncT =>
    cases hen : syncTEnabled s with
    | false => simp [syncTail_of_not_enabled s hen]
    | true => simp [syncTail_of_enabled s hen, ((syncTEnabled_iff s).1 hen).1]
  | syncH =>
    cases hen : syncHEnabled s with
    | false => simp [syncHead_of_not_enabled s hen]
    | true => simp [syncHead_of_enabled s hen, ((syncHEnabled_iff s).1 hen).1]
  | reset => cases hm : s.cfg.viewMode <;> simp [hm]
  | quiesce => simp
  | resume => simp

end Sys2Proof.Machine
end

section
/-! PROOFS. 10_state.md: the two view modes. What a port sees in each (R26), that it sees nothing else of the other
port's index, and that a `lagging` block can follow a `coherent` one (D5). -/

namespace Sys2Proof.Machine

open Sys2Proof

/-! ### What the views read -/

theorem readTailView_lagging (s : State) (h : s.cfg.viewMode = .lagging) : readTailView s = s.tailViewP := by
  simp [readTailView, h]

theorem readHeadView_lagging (s : State) (h : s.cfg.viewMode = .lagging) : readHeadView s = s.headViewC := by
  simp [readHeadView, h]

theorem readTailView_coherent (s : State) (h : s.cfg.viewMode = .coherent) : readTailView s = s.tail := by
  simp [readTailView, h]

theorem readHeadView_coherent (s : State) (h : s.cfg.viewMode = .coherent) : readHeadView s = s.head := by
  simp [readHeadView, h]

/-- The counts a port answers depend on the parameters and on the two indices it sees. -/
theorem counts_congr (p : Port) (s u : State) (hcfg : u.cfg = s.cfg) (hseen : indicesSeen p u = indicesSeen p s) :
    availOn p u = availOn p s ∧ freeOn p u = freeOn p s := by
  have havail : availOn p u = availOn p s := by simp only [availOn, hseen, hcfg]
  exact ⟨havail, by simp only [freeOn, havail, hcfg]⟩

/-! ### The other port's index behind the view (R25, R26) -/

section

variable {w : CmdWord} {s t : State} (hlag : s.cfg.viewMode = .lagging) (x : Nat)

include hlag

/-- A command on port P has the same effect whatever the live `tail` is. -/
theorem CommandEffect.set_tail (he : CommandEffect .P w s t) :
    CommandEffect .P w { s with tail := x } { t with tail := x } := by
  have hview : readTailView { s with tail := x } = readTailView s := by
    rw [readTailView_lagging s hlag, readTailView_lagging { s with tail := x } hlag]
  have hfull : fullSeen { s with tail := x } = fullSeen s := by simp only [fullSeen, hview]
  have hcounts := counts_congr .P s { s with tail := x } rfl (by simp only [indicesSeen, hview])
  cases he with
  | held h => exact .held h
  | faulted h hf => exact .faulted h hf
  | raised hr c hc => exact .raised (s := { s with tail := x }) hr c hc
  | putFull hr hp b hd hf => exact .putFull hr rfl b hd (hfull.trans hf)
  | put hr hp b hd hf hh => exact .put (s := { s with tail := x }) hr rfl b hd (hfull.trans hf) hh
  | count hr n hd => exact .count (s := { s with tail := x }) hr n (by rwa [hcounts.1, hcounts.2])
  | getEmpty _ hp => cases hp
  | get _ hp => cases hp
  | clear _ hp => cases hp
  | crcInit _ hp => cases hp
  | crcFeed _ hp => cases hp
  | crcRead _ hp => cases hp
  | crcCheckOk _ hp => cases hp
  | crcCheckMismatch _ hp => cases hp

/-- A command on port C other than CLEAR has the same effect whatever the live `head` is. -/
theorem CommandEffect.set_head (hw : w ≠ 0x5000#16) (he : CommandEffect .C w s t) :
    CommandEffect .C w { s with head := x } { t with head := x } := by
  have hview : readHeadView { s with head := x } = readHeadView s := by
    rw [readHeadView_lagging s hlag, readHeadView_lagging { s with head := x } hlag]
  have hempty : emptySeen { s with head := x } = emptySeen s := by simp only [emptySeen, hview]
  have hcounts := counts_congr .C s { s with head := x } rfl (by simp only [indicesSeen, hview])
  cases he with
  | held h => exact .held h
  | faulted h hf => exact .faulted h hf
  | raised hr c hc => exact .raised (s := { s with head := x }) hr c hc
  | getEmpty hr hp hd he => exact .getEmpty hr rfl hd (hempty.trans he)
  | get hr hp hd he ht => exact .get (s := { s with head := x }) hr rfl hd (hempty.trans he) ht
  | count hr n hd => exact .count (s := { s with head := x }) hr n (by rwa [hcounts.1, hcounts.2])
  | clear hr hp hd => exact absurd (eq_of_decode_clear _ _ _ hd) hw
  | putFull _ hp => cases hp
  | put _ hp => cases hp
  | crcInit _ hp => cases hp
  | crcFeed _ hp => cases hp
  | crcRead _ hp => cases hp
  | crcCheckOk _ hp => cases hp
  | crcCheckMismatch _ hp => cases hp

end

/-- Settles O43: each effect of a command on one port is an effect with the other port's index changed. -/
theorem portsSeeOnlyTheirViews : Obligations.PortsSeeOnlyTheirViews := fun _ _ _ x hlag =>
  ⟨fun h => ((issue_effect _ _ _ _ h).set_tail hlag x).issue_eq,
    fun hw h => ((issue_effect _ _ _ _ h).set_head hlag x hw).issue_eq⟩

/-! ### The lagging block that follows a coherent one (D5) -/

/-- A block whose views are current sees what the coherent block sees. -/
theorem readViews_asLagging (s : State) (hco : s.cfg.viewMode = .coherent) :
    readTailView (asLagging s) = readTailView s ∧ readHeadView (asLagging s) = readHeadView s :=
  ⟨(readTailView_coherent s hco).symm, (readHeadView_coherent s hco).symm⟩

theorem counts_asLagging (p : Port) (s : State) (hco : s.cfg.viewMode = .coherent) :
    availOn p (asLagging s) = availOn p s ∧ freeOn p (asLagging s) = freeOn p s := by
  obtain ⟨htv, hhv⟩ := readViews_asLagging s hco
  have hseen : indicesSeen p (asLagging s) = indicesSeen p s := by
    cases p with
    | P => exact congrArg (fun v => some (s.head, v)) htv
    | C => exact congrArg (fun v => some (v, s.tail)) hhv
    | K => rfl
  have havail : availOn p (asLagging s) = availOn p s := congrArg (Option.map _) hseen
  exact ⟨havail, congrArg (Option.map _) havail⟩

/-- After SYNC_T the view is current, on an unfaulted block or where it was current before. -/
theorem syncTail_current (u : State) (hlag : u.cfg.viewMode = .lagging)
    (h : u.faultCode = 0x00#8 ∨ u.tailViewP = u.tail) : syncTail u = { u with tailViewP := u.tail } := by
  cases hen : syncTEnabled u with
  | true => exact syncTail_of_enabled u hen
  | false =>
    have hcur : u.tailViewP = u.tail := by
      by_contra hne
      exact Bool.false_ne_true (hen.symm.trans ((syncTEnabled_iff u).2 ⟨hlag, hne, h.resolve_right hne⟩))
    exact (syncTail_of_not_enabled u hen).trans (congrArg (fun i => { u with tailViewP := i }) hcur)

/-- After SYNC_H the view is current, on an unfaulted block or where it was current before. -/
theorem syncHead_current (u : State) (hlag : u.cfg.viewMode = .lagging)
    (h : u.faultCode = 0x00#8 ∨ u.headViewC = u.head) : syncHead u = { u with headViewC := u.head } := by
  cases hen : syncHEnabled u with
  | true => exact syncHead_of_enabled u hen
  | false =>
    have hcur : u.headViewC = u.head := by
      by_contra hne
      exact Bool.false_ne_true (hen.symm.trans ((syncHEnabled_iff u).2 ⟨hlag, hne, h.resolve_right hne⟩))
    exact (syncHead_of_not_enabled u hen).trans (congrArg (fun i => { u with headViewC := i }) hcur)

/-- The two synchroniser steps together. -/
theorem runActions_syncs (u : State) (hlag : u.cfg.viewMode = .lagging)
    (h : u.faultCode = 0x00#8 ∨ (u.tailViewP = u.tail ∧ u.headViewC = u.head)) :
    runActions [.syncT, .syncH] u = .next (asLagging u) := by
  have htail := syncTail_current u hlag (h.imp_right And.left)
  have hhead := syncHead_current { u with tailViewP := u.tail } hlag (h.imp_right And.right)
  simp only [runActions, perform, htail, hhead, asLagging, ← hlag]

/-- What a lagging block's own action leaves for the synchroniser: the coherent block's next state `t` but for the
views, which are current unless the synchroniser can still step. -/
def Follows (u t : State) : Prop :=
  u.cfg.viewMode = .lagging ∧ asLagging u = asLagging t ∧
    (u.faultCode = 0x00#8 ∨ (u.tailViewP = u.tail ∧ u.headViewC = u.head))

/-- Where the views are current already, nothing is left. -/
theorem follows_of_eq {u t : State} (h : u = asLagging t) : Follows u t := by
  subst h
  exact ⟨rfl, rfl, .inr ⟨rfl, rfl⟩⟩

/-- A command of a coherent block is followed by the same command of the lagging block with current views. -/
theorem CommandEffect.follows {p : Port} {w : CmdWord} {s t : State} (hco : s.cfg.viewMode = .coherent)
    (he : CommandEffect p w s t) : ∃ u, CommandEffect p w (asLagging s) u ∧ Follows u t := by
  obtain ⟨htv, hhv⟩ := readViews_asLagging s hco
  have hfull : fullSeen (asLagging s) = fullSeen s := by simp only [fullSeen, htv]; rfl
  have hempty : emptySeen (asLagging s) = emptySeen s := by simp only [emptySeen, hhv]; rfl
  cases he with
  | held h => exact ⟨_, .held h, follows_of_eq rfl⟩
  | faulted h hf => exact ⟨_, .faulted h hf, follows_of_eq rfl⟩
  | raised hr c hc => exact ⟨_, .raised (s := asLagging s) hr c hc, follows_of_eq rfl⟩
  | putFull hr hp b hd hf => exact ⟨_, .putFull hr hp b hd (hfull.trans hf), follows_of_eq rfl⟩
  | put hr hp b hd hf hh =>
    exact ⟨_, .put (s := asLagging s) hr hp b hd (hfull.trans hf) hh, rfl, rfl, .inl hr.1⟩
  | getEmpty hr hp hd he => exact ⟨_, .getEmpty hr hp hd (hempty.trans he), follows_of_eq rfl⟩
  | get hr hp hd he ht =>
    exact ⟨_, .get (s := asLagging s) hr hp hd (hempty.trans he) ht, rfl, rfl, .inl hr.1⟩
  | count hr n hd =>
    obtain ⟨havail, hfree⟩ := counts_asLagging p s hco
    exact ⟨_, .count (s := asLagging s) hr n (by rwa [havail, hfree]), follows_of_eq rfl⟩
  | clear hr hp hd he =>
    refine ⟨_, .clear (s := asLagging s) hr hp hd he, rfl, ?_, .inl hr.1⟩
    simp [writeViews, asLagging, hco]
  | crcInit hr hp hd => exact ⟨_, .crcInit (s := asLagging s) hr hp hd, follows_of_eq rfl⟩
  | crcFeed hr hp b hd hv => exact ⟨_, .crcFeed (s := asLagging s) hr hp b hd hv, follows_of_eq rfl⟩
  | crcRead hr hp hd hv => exact ⟨_, .crcRead (s := asLagging s) hr hp hd hv, follows_of_eq rfl⟩
  | crcCheckOk hr hp hd hv => exact ⟨_, .crcCheckOk (s := asLagging s) hr hp hd hv, follows_of_eq rfl⟩
  | crcCheckMismatch hr hp c hd hc hv =>
    exact ⟨_, .crcCheckMismatch (s := asLagging s) hr hp c hd hc hv, follows_of_eq rfl⟩

/-- Each action of a coherent block is followed by the same action of the lagging block with current views. -/
theorem perform_follows (a : Action) (s t : State) (hco : s.cfg.viewMode = .coherent) (h : perform a s = .next t) :
    ∃ u, perform a (asLagging s) = .next u ∧ Follows u t := by
  cases perform_effect a s t h with
  | none p hn => exact ⟨_, perform_command_of_no_fetch p (asLagging s) hn, follows_of_eq rfl⟩
  | command p w t hw he =>
    obtain ⟨u, hu, hfollows⟩ := he.follows hco
    exact ⟨u, (perform_command_of_fetch p w (asLagging s) hw).trans hu.issue_eq, hfollows⟩
  | syncT =>
    have hs : syncTail s = s := syncTail_of_not_enabled s (by simp [syncTEnabled, hco])
    have hl : syncTail (asLagging s) = asLagging s :=
      syncTail_of_not_enabled _ (by simp [syncTEnabled, asLagging])
    exact ⟨_, congrArg Host.Outcome.next hl, follows_of_eq (congrArg asLagging hs.symm)⟩
  | syncH =>
    have hs : syncHead s = s := syncHead_of_not_enabled s (by simp [syncHEnabled, hco])
    have hl : syncHead (asLagging s) = asLagging s :=
      syncHead_of_not_enabled _ (by simp [syncHEnabled, asLagging])
    exact ⟨_, congrArg Host.Outcome.next hl, follows_of_eq (congrArg asLagging hs.symm)⟩
  | reset =>
    refine ⟨hostReset (asLagging s), rfl, rfl, ?_, .inl rfl⟩
    simp [hostReset, writeViews, asLagging, hco]
  | quiesce => exact ⟨_, rfl, follows_of_eq rfl⟩
  | resume => exact ⟨_, rfl, follows_of_eq rfl⟩

/-- Settles O47: after the same action, the two synchroniser steps copy what it wrote. -/
theorem laggingSimulatesCoherent : Obligations.LaggingSimulatesCoherent := by
  intro a s t hco h
  obtain ⟨u, hu, hlag, hsame, hsync⟩ := perform_follows a s t hco h
  calc runActions [a, .syncT, .syncH] (asLagging s)
      = runActions [.syncT, .syncH] u := by rw [runActions, hu]
    _ = .next (asLagging u) := runActions_syncs u hlag hsync
    _ = .next (asLagging t) := by rw [hsame]

end Sys2Proof.Machine
end

section
/-! PROOFS. 10_state.md: the legal states (R28, R35, R36), what their view invariants say of the two ports, and that
every step keeps them. -/

namespace Sys2Proof.Machine

open Sys2Proof

/-! ### The occupancy each port sees (R28) -/

theorem lagTail_coherent (s : State) (h : s.cfg.viewMode = .coherent) : lagTail s = 0 := by
  rw [lagTail, readTailView_coherent s h, modN_self]

theorem lagHead_coherent (s : State) (h : s.cfg.viewMode = .coherent) : lagHead s = 0 := by
  rw [lagHead, readHeadView_coherent s h, modN_self]

/-- The producer counts the bytes it has not yet seen leave. -/
theorem availOn_P_eq (s : State) (hr : RegistersLegal s) (hv : ViewsLegal s) :
    availOn .P s = some (availableTrue s + lagTail s) := by
  obtain ⟨hroom, -, -⟩ := hv
  obtain ⟨havail, hlagT, -⟩ := occupancy s hr
  have hseen := modN_sub s.head (readTailView s) s.cfg.N hr.1 (readTailView_lt s hr)
  have heq : modN ((s.head : Int) - (readTailView s : Int)) s.cfg.N = availableTrue s + lagTail s := by omega
  exact congrArg some heq

/-- The consumer does not count the bytes it has not yet seen arrive. -/
theorem availOn_C_eq (s : State) (hr : RegistersLegal s) (hv : ViewsLegal s) :
    availOn .C s = some (availableTrue s - lagHead s) := by
  obtain ⟨-, hqueued, -⟩ := hv
  obtain ⟨havail, -, hlagH⟩ := occupancy s hr
  have hseen := modN_sub (readHeadView s) s.tail s.cfg.N (readHeadView_lt s hr) hr.2.1
  have heq : modN ((readHeadView s : Int) - (s.tail : Int)) s.cfg.N = availableTrue s - lagHead s := by omega
  exact congrArg some heq

/-- Where the producer does not see the buffer full, a slot is free beyond those it still counts. -/
theorem room_of_not_fullSeen (s : State) (hr : RegistersLegal s) (hv : ViewsLegal s) (hf : fullSeen s = false) :
    availableTrue s + lagTail s < s.cfg.N - 1 := by
  have hne : nextIndex s.head s.cfg.N ≠ readTailView s := of_decide_eq_false hf
  obtain ⟨hroom, -, -⟩ := hv
  obtain ⟨havail, hlagT, -⟩ := occupancy s hr
  have hview := readTailView_lt s hr
  have hnext := nextIndex_cases s.head s.cfg.N hr.1
  omega

/-- Where the consumer does not see the buffer empty, a byte it has seen arrive is queued. -/
theorem queued_of_not_emptySeen (s : State) (hr : RegistersLegal s) (hv : ViewsLegal s) (he : emptySeen s = false) :
    lagHead s < availableTrue s := by
  have hne : s.tail ≠ readHeadView s := of_decide_eq_false he
  obtain ⟨-, hqueued, -⟩ := hv
  obtain ⟨havail, -, hlagH⟩ := occupancy s hr
  have hview := readHeadView_lt s hr
  omega

/-- No queued byte stands in the slot the next PUT writes. -/
theorem slotAt_ne_head (s : State) (hr : RegistersLegal s) (j : Nat) (hj : j < availableTrue s) :
    slotAt s j ≠ s.head := by
  obtain ⟨havail, -, -⟩ := occupancy s hr
  have hslot := slotAt_cases s j hr.2.1 (by omega)
  omega

theorem slotAt_zero (s : State) (hr : RegistersLegal s) : slotAt s 0 = s.tail := Nat.mod_eq_of_lt hr.2.1

/-- The slot behind the last queued byte is the one the next PUT writes. -/
theorem slotAt_available (s : State) (hr : RegistersLegal s) : slotAt s (availableTrue s) = s.head := by
  obtain ⟨havail, -, -⟩ := occupancy s hr
  have hslot := slotAt_cases s (availableTrue s) hr.2.1 havail.1
  have hhead := hr.1
  omega

/-- Settles O33, from the distances on the ring that rule R28 bounds. -/
theorem viewsBoundOccupancy : Obligations.ViewsBoundOccupancy := by
  intro s hinv
  obtain ⟨-, hr, hv, -, -⟩ := hinv
  refine ⟨⟨_, availOn_P_eq s hr hv, rfl⟩, ⟨_, availOn_C_eq s hr hv, Nat.sub_add_cancel hv.2.1⟩,
    fun hco => ⟨lagTail_coherent s hco, lagHead_coherent s hco⟩, fun _ => slotAt_ne_head s hr,
    fun he => ⟨?_, slotAt_zero s hr⟩⟩
  exact (Nat.zero_le _).trans_lt (queued_of_not_emptySeen s hr hv he)

/-! ### Legal states that are empty (R36) -/

/-- Both indices and both views at 0: a state with nothing queued is legal, whatever bytes its storage holds. -/
theorem inv_of_zero_indices (s : State) (hcfg : s.cfg.wf) (hhead : s.head = 0) (htail : s.tail = 0)
    (htv : s.tailViewP = 0) (hhv : s.headViewC = 0)
    (hfault : s.faultCode = 0x00#8 ∨ s.faultCode = 0x01#8 ∨ s.faultCode = 0x02#8 ∨ s.faultCode = 0x03#8)
    (hwf : Memory.wf s.storage = true) (hbelow : Memory.below s.cfg.N s.storage = true) (hports : PortsLegal s) :
    Inv s := by
  have hN : 0 < s.cfg.N := by have := hcfg.1; omega
  have hreadT : readTailView s = 0 := by cases hm : s.cfg.viewMode <;> simp [readTailView, hm, htv, htail]
  have hreadH : readHeadView s = 0 := by cases hm : s.cfg.viewMode <;> simp [readHeadView, hm, hhv, hhead]
  have havail : availableTrue s = 0 := by rw [availableTrue, hhead, htail]; exact modN_self 0 _
  have hlagT : lagTail s = 0 := by rw [lagTail, htail, hreadT]; exact modN_self 0 _
  have hlagH : lagHead s = 0 := by rw [lagHead, hhead, hreadH]; exact modN_self 0 _
  refine ⟨hcfg, ⟨by omega, by omega, by omega, by omega, hfault⟩, ⟨by omega, by omega, fun _ => ⟨htv, hhv⟩⟩,
    ⟨hwf, hbelow, fun j hj => ?_⟩, hports⟩
  omega

theorem inv_powerUp (c : Params) (hc : c.wf) : Inv (State.powerUp c) :=
  inv_of_zero_indices _ hc rfl rfl rfl rfl (.inl rfl) rfl rfl ⟨rfl, rfl, rfl⟩

/-- Settles O31: at power-up nothing is queued. -/
theorem powerUpIsLegal : Obligations.PowerUpIsLegal :=
  ⟨inv_powerUp, rfl, inv_powerUp Params.reference (by decide)⟩

/-! ### What a successful PUT, GET and CLEAR do to the ring -/

/-- The ring after a successful PUT of `b` (R81): the state that `CommandEffect.put` answers. -/
def enqueue (b : Byte) (s : State) : State :=
  { s with storage := Memory.write s.storage s.head b, head := nextIndex s.head s.cfg.N }

/-- The ring after a successful GET (R82): the state that `CommandEffect.get` answers. -/
def dequeue (s : State) : State := { s with tail := nextIndex s.tail s.cfg.N }

/-- The ring after a successful CLEAR (R85): the state that `CommandEffect.clear` answers. -/
def cleared (s : State) : State := writeViews 0 0 { s with head := 0, tail := 0 }

section

variable {s : State} (hr : RegistersLegal s) (hv : ViewsLegal s)

include hr

theorem registersLegal_enqueue (b : Byte) : RegistersLegal (enqueue b s) :=
  ⟨nextIndex_lt _ _ (Nat.zero_lt_of_lt hr.1), hr.2⟩

theorem registersLegal_dequeue : RegistersLegal (dequeue s) :=
  ⟨hr.1, nextIndex_lt _ _ (Nat.zero_lt_of_lt hr.1), hr.2.2⟩

include hv

/-- A PUT that is not refused adds one byte, and both ports' lags stay within their bounds (R28). -/
theorem occupancy_enqueue (b : Byte) (hf : fullSeen s = false) :
    availableTrue (enqueue b s) = availableTrue s + 1 ∧ lagTail (enqueue b s) = lagTail s ∧
      lagHead (enqueue b s) ≤ lagHead s + 1 := by
  have hroom := room_of_not_fullSeen s hr hv hf
  have hqueued := hv.2.1
  have hnext : (s.head + 1 = s.cfg.N ∧ (enqueue b s).head = 0) ∨
      (s.head + 1 < s.cfg.N ∧ (enqueue b s).head = s.head + 1) := nextIndex_cases _ _ hr.1
  have hcfg : (enqueue b s).cfg = s.cfg := rfl
  have htail : (enqueue b s).tail = s.tail := rfl
  obtain ⟨havail, -, hlagH⟩ := occupancy s hr
  obtain ⟨havail', -, hlagH'⟩ := occupancy (enqueue b s) (registersLegal_enqueue hr b)
  rw [hcfg] at havail' hlagH'
  refine ⟨by omega, rfl, ?_⟩
  cases hm : s.cfg.viewMode with
  | coherent => rw [lagHead_coherent (enqueue b s) hm]; omega
  | lagging =>
    have hview : readHeadView (enqueue b s) = readHeadView s := by
      rw [readHeadView_lagging s hm, readHeadView_lagging (enqueue b s) hm]; rfl
    omega

/-- A GET that is not refused removes one byte, and both ports' lags stay within their bounds (R28). -/
theorem occupancy_dequeue (he : emptySeen s = false) :
    availableTrue (dequeue s) + 1 = availableTrue s ∧ lagTail (dequeue s) ≤ lagTail s + 1 ∧
      lagHead (dequeue s) = lagHead s := by
  have hseen := queued_of_not_emptySeen s hr hv he
  have hroom := hv.1
  have hnext : (s.tail + 1 = s.cfg.N ∧ (dequeue s).tail = 0) ∨
      (s.tail + 1 < s.cfg.N ∧ (dequeue s).tail = s.tail + 1) := nextIndex_cases _ _ hr.2.1
  have hcfg : (dequeue s).cfg = s.cfg := rfl
  have hhead : (dequeue s).head = s.head := rfl
  obtain ⟨havail, hlagT, -⟩ := occupancy s hr
  obtain ⟨havail', hlagT', -⟩ := occupancy (dequeue s) (registersLegal_dequeue hr)
  rw [hcfg] at havail' hlagT'
  refine ⟨by omega, ?_, rfl⟩
  cases hm : s.cfg.viewMode with
  | coherent => rw [lagTail_coherent (dequeue s) hm]; omega
  | lagging =>
    have hview : readTailView (dequeue s) = readTailView s := by
      rw [readTailView_lagging s hm, readTailView_lagging (dequeue s) hm]; rfl
    omega

end

/-- After a GET the `j`-th queued byte is the one that was queued behind it. -/
theorem slotAt_dequeue (s : State) (j : Nat) : slotAt (dequeue s) j = slotAt s (j + 1) := by
  simp only [slotAt, dequeue, nextIndex, Nat.mod_add_mod, Nat.add_assoc, Nat.add_comm 1 j]

theorem inv_enqueue (b : Byte) (s : State) (hinv : Inv s) (hf : fullSeen s = false) : Inv (enqueue b s) := by
  obtain ⟨hcfg, hr, hv, ⟨hwf, hbelow, hwritten⟩, hports⟩ := hinv
  obtain ⟨havail, hlagT, hlagH⟩ := occupancy_enqueue hr hv b hf
  have hroom := room_of_not_fullSeen s hr hv hf
  have hviews : ViewsLegal (enqueue b s) := by
    obtain ⟨-, hqueued, hzero⟩ := hv
    have hN : (enqueue b s).cfg.N = s.cfg.N := rfl
    exact ⟨by omega, by omega, hzero⟩
  refine ⟨hcfg, registersLegal_enqueue hr b, hviews, ⟨Memory.write_wf _ _ _ hwf,
    Memory.write_below _ _ _ _ hr.1 hbelow, fun j hj => ?_⟩, hports⟩
  change (Memory.read? (Memory.write s.storage s.head b) (slotAt s j)).isSome = true
  rw [Memory.read?_write]
  split_ifs with hslot
  · rfl
  · have hold : j ≠ availableTrue s := fun h => hslot (h ▸ slotAt_available s hr)
    exact hwritten j (by omega)

theorem inv_dequeue (s : State) (hinv : Inv s) (he : emptySeen s = false) : Inv (dequeue s) := by
  obtain ⟨hcfg, hr, hv, ⟨hwf, hbelow, hwritten⟩, hports⟩ := hinv
  obtain ⟨havail, hlagT, hlagH⟩ := occupancy_dequeue hr hv he
  have hseen := queued_of_not_emptySeen s hr hv he
  have hviews : ViewsLegal (dequeue s) := by
    obtain ⟨hroom, -, hzero⟩ := hv
    have hN : (dequeue s).cfg.N = s.cfg.N := rfl
    exact ⟨by omega, by omega, hzero⟩
  refine ⟨hcfg, registersLegal_dequeue hr, hviews, ⟨hwf, hbelow, fun j hj => ?_⟩, hports⟩
  rw [slotAt_dequeue]
  exact hwritten (j + 1) (by omega)

/-! ### What every other update keeps -/

/-- What the invariant says of the ports speaks of their indices and responses alone. -/
theorem portsLegal_congr (s t : State) (hpc : t.pc = s.pc) (hresp : t.resp = s.resp) (h : PortsLegal s) :
    PortsLegal t := by
  simpa only [PortsLegal, hpc, hresp] using h

theorem inv_answered (p : Port) (r : RespWord) (s : State) (hinv : Inv s) : Inv (answered p r s) := by
  obtain ⟨hcfg, hr, hv, hs, hP, hC, hK⟩ := hinv
  refine ⟨hcfg, hr, hv, hs, ?_⟩
  cases p with
  | P => exact ⟨by simp [answered, PerPort.set, PerPort.get, hP], hC, hK⟩
  | C => exact ⟨hP, by simp [answered, PerPort.set, PerPort.get, hC], hK⟩
  | K => exact ⟨hP, hC, by simp [answered, PerPort.set, PerPort.get, hK]⟩

theorem inv_faultCode (c : Cause) (s : State) (hinv : Inv s) : Inv { s with faultCode := causeCode c } := by
  obtain ⟨hcfg, ⟨hhead, htail, htv, hhv, -⟩, hrest⟩ := hinv
  exact ⟨hcfg, ⟨hhead, htail, htv, hhv, .inr (causeCode_mem c)⟩, hrest⟩

/-- A write of 0 to both views leaves them at 0: in `coherent` mode they are 0 already (log entry 12). -/
theorem views_zero_of_writeViews (s : State) (hv : ViewsLegal s) :
    (if s.cfg.viewMode = .lagging then 0 else s.tailViewP) = 0 ∧
      (if s.cfg.viewMode = .lagging then 0 else s.headViewC) = 0 := by
  cases hm : s.cfg.viewMode with
  | lagging => simp
  | coherent => simpa using hv.2.2 hm

theorem inv_cleared (s : State) (hinv : Inv s) : Inv (cleared s) := by
  obtain ⟨hcfg, ⟨-, -, -, -, hfault⟩, hv, ⟨hwf, hbelow, -⟩, hports⟩ := hinv
  obtain ⟨htv, hhv⟩ := views_zero_of_writeViews s hv
  exact inv_of_zero_indices (cleared s) (by rwa [cleared, writeViews_cfg]) (writeViews_head _ _ _)
    (writeViews_tail _ _ _) ((writeViews_tailViewP _ _ _).trans htv) ((writeViews_headViewC _ _ _).trans hhv)
    (by rwa [cleared, writeViews_faultCode]) (by rwa [cleared, writeViews_storage])
    (by rwa [cleared, writeViews_storage, writeViews_cfg])
    (portsLegal_congr s _ (writeViews_pc _ _ _) (writeViews_resp _ _ _) hports)

theorem inv_hostReset (s : State) (hinv : Inv s) : Inv (hostReset s) := by
  obtain ⟨hcfg, -, hv, -, hports⟩ := hinv
  obtain ⟨htv, hhv⟩ := views_zero_of_writeViews s hv
  exact inv_of_zero_indices (hostReset s) (by rwa [hostReset_cfg]) (hostReset_head s) (hostReset_tail s)
    ((hostReset_tailViewP s).trans htv) ((hostReset_headViewC s).trans hhv) (.inl (hostReset_faultCode s))
    (by rw [hostReset_storage]; rfl) (by rw [hostReset_storage]; rfl)
    (portsLegal_congr s _ (hostReset_pc s) (hostReset_resp s) hports)

/-- A view that copies the live index lags by 0 (R27, R28). -/
theorem inv_syncTail (s : State) (hinv : Inv s) : Inv (syncTail s) := by
  cases hen : syncTEnabled s with
  | false => rwa [syncTail_of_not_enabled s hen]
  | true =>
    rw [syncTail_of_enabled s hen]
    have hlag := ((syncTEnabled_iff s).1 hen).1
    obtain ⟨hcfg, ⟨hhead, htail, -, hhv, hfault⟩, ⟨hroom, hqueued, -⟩, hs, hports⟩ := hinv
    have hlagT : lagTail { s with tailViewP := s.tail } = 0 := by
      rw [lagTail, readTailView_lagging { s with tailViewP := s.tail } hlag, modN_self]
    refine ⟨hcfg, ⟨hhead, htail, htail, hhv, hfault⟩, ⟨?_, hqueued, fun hco => ?_⟩, hs, hports⟩
    · rw [hlagT]
      exact (Nat.le_add_right _ _).trans hroom
    · cases hlag.symm.trans hco

/-- A view that copies the live index lags by 0 (R27, R28). -/
theorem inv_syncHead (s : State) (hinv : Inv s) : Inv (syncHead s) := by
  cases hen : syncHEnabled s with
  | false => rwa [syncHead_of_not_enabled s hen]
  | true =>
    rw [syncHead_of_enabled s hen]
    have hlag := ((syncHEnabled_iff s).1 hen).1
    obtain ⟨hcfg, ⟨hhead, htail, htv, -, hfault⟩, ⟨hroom, -, -⟩, hs, hports⟩ := hinv
    have hlagH : lagHead { s with headViewC := s.head } = 0 := by
      rw [lagHead, readHeadView_lagging { s with headViewC := s.head } hlag, modN_self]
    refine ⟨hcfg, ⟨hhead, htail, htv, hhead, hfault⟩, ⟨hroom, ?_, fun hco => ?_⟩, hs, hports⟩
    · rw [hlagH]
      exact Nat.zero_le _
    · cases hlag.symm.trans hco

/-! ### Every step -/

theorem CommandEffect.inv {p : Port} {w : CmdWord} {s t : State} (he : CommandEffect p w s t) (hinv : Inv s) :
    Inv t := by
  cases he with
  | held => exact hinv
  | raised hr c hc => exact inv_answered _ _ _ (inv_faultCode c s hinv)
  | put hr hp b hd hf hh => exact inv_answered _ _ _ (inv_enqueue b s hinv hf)
  | get hr hp hd he ht => exact inv_answered _ _ _ (inv_dequeue s hinv he)
  | clear => exact inv_answered _ _ _ (inv_cleared s hinv)
  | crcInit => exact inv_answered _ _ { s with acc := 0xFF#8, accValid := true } hinv
  | crcFeed hr hp b => exact inv_answered _ _ { s with acc := crc8Update s.acc b } hinv
  | _ => exact inv_answered _ _ s hinv

/-- Every action keeps the invariant (R28, R35). -/
theorem perform_inv (a : Action) (s t : State) (hinv : Inv s) (h : perform a s = .next t) : Inv t := by
  cases perform_effect a s t h with
  | none => exact hinv
  | command p w t hw he => exact he.inv hinv
  | syncT => exact inv_syncTail s hinv
  | syncH => exact inv_syncHead s hinv
  | reset => exact inv_hostReset s hinv
  | quiesce => exact hinv
  | resume => exact hinv

/-- Settles O32: a step is its action, and the schedule is no part of what the invariant speaks of. -/
theorem stepKeepsTheInvariant : Obligations.StepKeepsTheInvariant := by
  intro s t hinv h
  obtain ⟨a, rest, -, hperform⟩ := step_cases s t h
  exact perform_inv a { s with schedule := rest } t hinv hperform

end Sys2Proof.Machine
end

section
/-! PROOFS. 20_memory.md: AVAIL, FREE and CRC.READ have no side effect and repeat their response (R41). -/

namespace Sys2Proof

/-! ### The word of a command, issued on the command's port -/

theorem commandOf_of_instr (i : Instr) : commandOf i.port i.opcode i.imm = some i := by
  cases i <;> rfl

theorem Instr.imm_of_operandFree (i : Instr) (h : i.takesOperand = false) : i.imm = 0#8 := by
  cases i with
  | put | crcFeed | crcCheck => cases h
  | _ => rfl

theorem Instr.wellFormed_iff (i : Instr) : i.wellFormed = true ↔ i.port ∈ i.legalPorts := List.contains_iff_mem

/-- The word of a command, on its own port, is that command or is illegal there (R66 (d), R67). -/
theorem decode_encode_eq (i : Instr) :
    decode i.port (encode i) = if i.wellFormed then .cmd i else .illegal .wrongPort := by
  obtain ⟨hop, hrsv, himm⟩ := wordOf_fields i.opcode 0#4 i.imm
  have hoperand : ¬ (i.takesOperand = false ∧ i.imm ≠ 0#8) :=
    fun ⟨hfree, hne⟩ => hne (i.imm_of_operandFree hfree)
  simp only [decode, encode, hop, hrsv, himm, commandOf_of_instr]
  cases i.wellFormed <;> simp [hoperand]

theorem decode_encode_of_wellFormed (i : Instr) (h : i.wellFormed = true) : decode i.port (encode i) = .cmd i := by
  rw [decode_encode_eq, if_pos h]

/-- The commands that only answer: AVAIL, FREE and CRC.READ (R41). -/
def Instr.isQuery : Instr → Bool
  | .avail _ | .free _ | .crcRead _ => true
  | _ => false

/-- What the word of a query decodes to is a query. -/
theorem isQuery_of_decode_encode (i j : Instr) (hi : i.isQuery = true) (h : decode i.port (encode i) = .cmd j) :
    j.isQuery = true := by
  rw [decode_encode_eq] at h
  split_ifs at h
  cases h
  exact hi

end Sys2Proof

namespace Sys2Proof.Machine

open Sys2Proof

/-- A command and its word have the same effect, also on a port that is not legal for it (R66 (d), log entry 14). -/
theorem exec_eq_issue (i : Instr) (s : State) : exec i s = issue i.port (encode i) s := by
  cases hw : i.wellFormed with
  | true => rw [issue_of_decode _ _ _ s (decode_encode_of_wellFormed i hw)]
  | false =>
    obtain ⟨body, hbody⟩ := exec_runs i
    have hd : decode i.port (encode i) = .illegal .wrongPort := by simp [decode_encode_eq, hw]
    simp only [hbody, runCommand, hw, issue, hd, runIllegal, Bool.false_eq_true, if_false]

/-- What a query can do: nothing while it is held; else it answers, writing nothing but its port's index and responses
and the fault code, and issued again it answers the same. -/
theorem CommandEffect.query_cases {p : Port} {w : CmdWord} {s t : State} (he : CommandEffect p w s t)
    (hq : ∀ i, decode p w = .cmd i → i.isQuery = true) :
    t = s ∨ ∃ r c, t = answered p r { s with faultCode := c } ∧ CommandEffect p w t (answered p r t) := by
  cases he with
  | held => exact .inl rfl
  | faulted hh hf => exact .inr ⟨_, s.faultCode, rfl, .faulted hh hf⟩
  | raised hr c hc =>
    have hfaulted : causeCode c ≠ 0x00#8 := by cases c <;> decide
    exact .inr ⟨_, _, rfl, .faulted ((ready_iff p s).1 hr).2 hfaulted⟩
  | count hr n hd => exact .inr ⟨_, s.faultCode, rfl, CommandEffect.count (s := answered p _ s) hr n hd⟩
  | crcRead hr hp hd hv =>
    subst hp
    exact .inr ⟨_, s.faultCode, rfl, .crcRead hr rfl hd hv⟩
  | putFull _ _ _ hd | put _ _ _ hd | getEmpty _ _ hd | get _ _ hd | clear _ _ hd | crcInit _ _ hd
  | crcFeed _ _ _ hd | crcCheckOk _ _ hd | crcCheckMismatch _ _ _ hd => cases hq _ hd

/-- Settles O45: a query that is held changes nothing, and any other finds after its answer what it read before. -/
theorem queriesRepeat : Obligations.QueriesRepeat := by
  intro i p s t hi h
  have hquery : i.isQuery = true ∧ i.port = p := by
    obtain rfl | rfl | rfl := hi <;> exact ⟨rfl, rfl⟩
  obtain ⟨hisQuery, rfl⟩ := hquery
  have he := issue_effect _ _ _ _ ((exec_eq_issue i s).symm.trans h)
  obtain rfl | ⟨r, c, rfl, hagain⟩ := he.query_cases fun j => isQuery_of_decode_encode i j hisQuery
  · exact ⟨.inl rfl, t, h, rfl⟩
  · refine ⟨.inr ⟨r, rfl⟩, _, (exec_eq_issue i _).trans hagain.issue_eq, ?_⟩
    exact (newResponse_answered _ r _ _ rfl).trans (newResponse_answered _ r _ _ rfl).symm

end Sys2Proof.Machine
end

section
/-! PROOFS. 20_memory.md: the queued bytes (R49), what each action does to them, and their order on every interleaving
(R47). -/

namespace Sys2Proof.Machine

open Sys2Proof

/-! ### The queued bytes (R24, R49) -/

/-- The queue is read from the indices and the storage alone. -/
theorem queue_congr (s t : State) (hcfg : t.cfg = s.cfg) (hhead : t.head = s.head) (htail : t.tail = s.tail)
    (hstorage : t.storage = s.storage) (hdraws : t.draws = s.draws) : queue t = queue s := by
  simp only [queue, availableTrue, slotAt, slotByte, hcfg, hhead, htail, hstorage, hdraws]

@[simp] theorem queue_answered (p : Port) (r : RespWord) (s : State) : queue (answered p r s) = queue s := rfl

@[simp] theorem queue_syncTail (s : State) : queue (syncTail s) = queue s := by
  apply queue_congr <;> simp

@[simp] theorem queue_syncHead (s : State) : queue (syncHead s) = queue s := by
  apply queue_congr <;> simp

theorem queue_eq_nil_of_head_eq_tail (s : State) (h : s.head = s.tail) : queue s = [] := by
  rw [queue, availableTrue, h, modN_self, List.range_zero, List.map_nil]

@[simp] theorem queue_cleared (s : State) : queue (cleared s) = [] :=
  queue_eq_nil_of_head_eq_tail _ (by simp [cleared])

@[simp] theorem queue_hostReset (s : State) : queue (hostReset s) = [] :=
  queue_eq_nil_of_head_eq_tail _ (by simp)

/-- A PUT that is not refused writes behind the queued bytes, over none of them (R81). -/
theorem queue_enqueue (b : Byte) (s : State) (hr : RegistersLegal s) (hv : ViewsLegal s) (hf : fullSeen s = false) :
    queue (enqueue b s) = queue s ++ [b] := by
  have hbyte (j : Nat) : slotByte (slotAt (enqueue b s) j) (enqueue b s) =
      if slotAt s j = s.head then b else slotByte (slotAt s j) s := slotByte_write _ _ _ _
  rw [queue, (occupancy_enqueue hr hv b hf).1, List.range_succ, List.map_append, queue]
  congr 1
  · refine List.map_congr_left fun j hj => ?_
    rw [hbyte, if_neg (slotAt_ne_head s hr j (List.mem_range.1 hj))]
  · rw [List.map_singleton, hbyte, if_pos (slotAt_available s hr)]

/-- A GET that is not refused takes the byte at `tail`, the oldest (R82). -/
theorem queue_eq_cons_dequeue (s : State) (hr : RegistersLegal s) (hv : ViewsLegal s) (he : emptySeen s = false) :
    queue s = slotByte s.tail s :: queue (dequeue s) := by
  have hbyte (j : Nat) : slotByte (slotAt (dequeue s) j) (dequeue s) = slotByte (slotAt s (j + 1)) s := by
    rw [slotAt_dequeue]; rfl
  rw [queue, ← (occupancy_dequeue hr hv he).1, List.range_succ_eq_map, List.map_cons, slotAt_zero s hr, List.map_map,
    queue]
  simp only [hbyte, Function.comp_def]

/-! ### Commands answered OK (R64, R65) -/

/-- A response word gives back its status and its data. -/
theorem respWord_fields (st : Status) (d : BitVec 16) :
    respStatus (respWord st d) = statusCode st ∧ respData (respWord st d) = d := by
  constructor <;> apply BitVec.eq_of_getLsbD_eq <;> intro k hk <;>
    simp only [respStatus, respData, respWord, BitVec.getLsbD_extractLsb', BitVec.getLsbD_append] <;>
    interval_cases k <;> simp

@[simp] theorem respStatus_ok_byte (b : Byte) : respStatus (0x000000#24 ++ b) = statusCode .ok := by
  rw [← respWord_ok_byte, (respWord_fields _ _).1]

/-- The byte a GET answers is read back from its response (R82). -/
@[simp] theorem respData_ok_byte (b : Byte) : (respData (0x000000#24 ++ b)).setWidth 8 = b := by
  rw [← respWord_ok_byte, (respWord_fields _ _).2, zext16]
  simp

/-- The action `a`, from `s` to `t`, issued the command `i`, and its response `r` has the status OK. -/
def AnsweredOk (i : Instr) (r : RespWord) (a : Action) (s t : State) : Prop :=
  ∃ p, a = .command p ∧ (fetch p s).map (decode p) = some (.cmd i) ∧ newResponse p s t = some r ∧
    respStatus r = statusCode .ok

/-- The same, said of the word that the command's own port fetches. -/
theorem answeredOk_iff {i : Instr} {r : RespWord} {a : Action} {s t : State} :
    AnsweredOk i r a s t ↔ i.wellFormed = true ∧ a = .command i.port ∧ fetch i.port s = some (encode i) ∧
      newResponse i.port s t = some r ∧ respStatus r = statusCode .ok := by
  constructor
  · rintro ⟨p, ha, hcmd, hresp, hok⟩
    obtain ⟨w, hw, hd⟩ := Option.map_eq_some_iff.1 hcmd
    obtain ⟨rfl, hi⟩ := decode_cmd p w i hd
    exact ⟨hi, ha, (encode_eq_of_decode _ _ _ hd).symm ▸ hw, hresp, hok⟩
  · rintro ⟨hi, ha, hw, hresp, hok⟩
    exact ⟨_, ha, by rw [hw, Option.map_some, decode_encode_of_wellFormed i hi], hresp, hok⟩

/-- An action issues at most one command and has at most one response. -/
theorem AnsweredOk.unique {i j : Instr} {r q : RespWord} {a : Action} {s t : State} (h : AnsweredOk i r a s t)
    (h' : AnsweredOk j q a s t) : i = j ∧ r = q := by
  obtain ⟨p, rfl, hcmd, hresp, -⟩ := h
  obtain ⟨p', hp, hcmd', hresp', -⟩ := h'
  cases hp
  cases hcmd.symm.trans hcmd'
  exact ⟨rfl, Option.some.inj (hresp.symm.trans hresp')⟩

theorem not_answeredOk_of_no_response {p : Port} {s t : State} (h : newResponse p s t = none) (i : Instr)
    (r : RespWord) : ¬ AnsweredOk i r (.command p) s t := by
  rintro ⟨p', hp, -, hresp, -⟩
  cases hp
  cases h.symm.trans hresp

/-! ### What each action does to the queued bytes -/

/-- What the command `i`, answered OK, responds with (`r`) and makes of the queued bytes `q` (R81, R82, R85). -/
def Moved : Instr → RespWord → List Byte → List Byte → Prop
  | .put _ b, r, q, q' => r = 0x00000000#32 ∧ q' = q ++ [b]
  | .get _, r, q, q' => ∃ b, r = 0x000000#24 ++ b ∧ q = b :: q'
  | .clear _, r, _, q' => r = 0x00000000#32 ∧ q' = []
  | _, _, q, q' => q' = q

/-- Everything that an action can do to the queued bytes. -/
inductive QueueStep (a : Action) (s t : State) : Prop where
  | command (i : Instr) (r : RespWord) (h : AnsweredOk i r a s t) (hq : Moved i r (queue s) (queue t))
  | reset (h : a = .reset) (hq : queue t = [])
  | silent (hne : a ≠ .reset) (hno : ∀ i r, ¬ AnsweredOk i r a s t) (hq : queue t = queue s)

section

variable {p : Port} {w : CmdWord} {s u : State} {r : RespWord} (hw : fetch p s = some w) (hu : u.resp = s.resp)

include hu

/-- A command that is answered with another status than OK moves nothing. -/
theorem QueueStep.of_refused (hr : respStatus r ≠ statusCode .ok) (hq : queue u = queue s) :
    QueueStep (.command p) s (answered p r u) := by
  refine .silent nofun ?_ hq
  rintro i r' ⟨p', hp, -, hresp, hok⟩
  cases hp
  cases (newResponse_answered p r s u hu).symm.trans hresp
  exact hr hok

include hw

theorem QueueStep.of_ok {i : Instr} (hd : decode p w = .cmd i) (hr : respStatus r = statusCode .ok)
    (hq : Moved i r (queue s) (queue u)) : QueueStep (.command p) s (answered p r u) :=
  .command i r ⟨p, rfl, by rw [hw, Option.map_some, hd], newResponse_answered p r s u hu, hr⟩ hq

end

/-- What a command does to the queued bytes. -/
theorem CommandEffect.queueStep {p : Port} {w : CmdWord} {s t : State} (he : CommandEffect p w s t) (hinv : Inv s)
    (hw : fetch p s = some w) : QueueStep (.command p) s t := by
  obtain ⟨-, hregs, hviews, -, -⟩ := hinv
  cases he with
  | held => exact .silent nofun (not_answeredOk_of_no_response (newResponse_self p s)) rfl
  | faulted | raised => exact .of_refused rfl (by decide) rfl
  | putFull hr hp | getEmpty hr hp =>
    subst hp
    exact .of_refused rfl (by decide) rfl
  | put hr hp b hd hf =>
    subst hp
    exact .of_ok hw rfl hd (by decide) ⟨rfl, queue_enqueue b s hregs hviews hf⟩
  | get hr hp hd he =>
    subst hp
    exact .of_ok hw rfl hd (respStatus_ok_byte _) ⟨_, rfl, queue_eq_cons_dequeue s hregs hviews he⟩
  | clear hr hp hd =>
    subst hp
    exact .of_ok hw (writeViews_resp _ _ _) hd (by decide) ⟨rfl, queue_cleared s⟩
  | count hr n hd =>
    obtain ⟨hd, -⟩ | ⟨hd, -⟩ := hd <;> exact .of_ok hw rfl hd (respWord_fields _ _).1 rfl
  | crcInit hr hp hd =>
    subst hp
    exact .of_ok hw rfl hd (by decide) rfl
  | crcFeed hr hp b hd | crcRead hr hp hd | crcCheckOk hr hp hd =>
    subst hp
    exact .of_ok hw rfl hd (respStatus_ok_byte _) rfl
  | crcCheckMismatch hr hp c hd =>
    subst hp
    refine .of_refused rfl ?_ rfl
    rw [← respWord_mismatch_byte, (respWord_fields _ _).1]
    decide

/-- What an action does to the queued bytes (R49). -/
theorem perform_queueStep (a : Action) (s t : State) (hinv : Inv s) (h : perform a s = .next t) : QueueStep a s t := by
  cases perform_effect a s t h with
  | command p w t hw he => exact he.queueStep hinv hw
  | none p => exact .silent nofun (not_answeredOk_of_no_response (newResponse_self p s)) rfl
  | reset => exact .reset rfl (queue_hostReset s)
  | syncT => exact .silent nofun (fun _ _ ⟨_, hp, _⟩ => nomatch hp) (queue_syncTail s)
  | syncH => exact .silent nofun (fun _ _ ⟨_, hp, _⟩ => nomatch hp) (queue_syncHead s)
  | quiesce | resume => exact .silent nofun (fun _ _ ⟨_, hp, _⟩ => nomatch hp) rfl

/-- A command answered OK did what it does: no other case of `QueueStep` is left. -/
theorem QueueStep.moved {i : Instr} {r : RespWord} {a : Action} {s t : State} (h : QueueStep a s t)
    (hok : AnsweredOk i r a s t) : Moved i r (queue s) (queue t) := by
  cases h with
  | command j q h hq =>
    obtain ⟨rfl, rfl⟩ := h.unique hok
    exact hq
  | reset ha =>
    obtain ⟨p, hp, -⟩ := hok
    cases ha.symm.trans hp
  | silent _ hno => exact absurd hok (hno i r)

/-- Settles O38: of the commands answered OK three move bytes, RESET empties the queue, and nothing else moves any. -/
theorem onlyPutAndGetMoveBytes : Obligations.OnlyPutAndGetMoveBytes := by
  intro a s t hinv h
  have hstep := perform_queueStep a s t hinv h
  refine ⟨fun b ha hw hresp => ?_, fun r ha hw hresp hok => ?_, fun ha hw hresp => ?_, ?_,
    fun hput hget hclear hreset => ?_⟩
  · exact (hstep.moved (i := .put .P b) (answeredOk_iff.2 ⟨rfl, ha, hw, hresp, by decide⟩)).2
  · exact hstep.moved (i := .get .C) (answeredOk_iff.2 ⟨rfl, ha, hw, hresp, hok⟩)
  · exact (hstep.moved (i := .clear .C) (answeredOk_iff.2 ⟨rfl, ha, hw, hresp, by decide⟩)).2
  · rintro rfl
    cases h
    exact queue_hostReset s
  · cases hstep with
    | reset ha => exact absurd ha hreset
    | silent _ _ hq => exact hq
    | command i r hok hq =>
      obtain ⟨hi, ha, hw, hresp, hstatus⟩ := answeredOk_iff.1 hok
      cases i with
      | put p b =>
        obtain ⟨rfl, -⟩ := hq
        obtain rfl : p = .P := List.mem_singleton.1 ((Instr.wellFormed_iff _).1 hi)
        exact absurd ⟨b, ha, hw, hresp⟩ hput
      | get p =>
        obtain rfl : p = .C := List.mem_singleton.1 ((Instr.wellFormed_iff _).1 hi)
        exact absurd ⟨r, ha, hw, hresp, hstatus⟩ hget
      | clear p =>
        obtain ⟨rfl, -⟩ := hq
        obtain rfl : p = .C := List.mem_singleton.1 ((Instr.wellFormed_iff _).1 hi)
        exact absurd ⟨ha, hw, hresp⟩ hclear
      | _ => exact hq

/-! ### First in, first out (R47) -/

/-- The bytes put since the last CLEAR or RESET are those got, in order, and then those still queued. -/
def FirstInFirstOut (h : History) (s : State) : Prop := h.puts = h.gets ++ queue s

section

variable {p : Port} {r : RespWord} {a : Action} {s t : State} (h : History)

theorem History.after_put {b : Byte} (hok : AnsweredOk (.put p b) r a s t) :
    h.after a s t = { h with puts := h.puts ++ [b] } := by
  obtain ⟨q, rfl, hcmd, hresp, hstatus⟩ := hok
  simp only [History.after, hcmd, hresp, hstatus, if_true]

theorem History.after_get (hok : AnsweredOk (.get p) r a s t) :
    h.after a s t = { h with gets := h.gets ++ [(respData r).truncate 8] } := by
  obtain ⟨q, rfl, hcmd, hresp, hstatus⟩ := hok
  simp only [History.after, hcmd, hresp, hstatus, if_true]

theorem History.after_clear (hok : AnsweredOk (.clear p) r a s t) : h.after a s t = ⟨[], []⟩ := by
  obtain ⟨q, rfl, hcmd, hresp, hstatus⟩ := hok
  simp only [History.after, hcmd, hresp, hstatus, if_true]

/-- Nothing is noted of an action that is no RESET and has no command answered OK. -/
theorem History.after_of_silent (hne : a ≠ .reset) (hno : ∀ i r, ¬ AnsweredOk i r a s t) : h.after a s t = h := by
  cases a with
  | reset => exact absurd rfl hne
  | command p =>
    have hstatus {i r} (hcmd : (fetch p s).map (decode p) = some (.cmd i)) (hresp : newResponse p s t = some r) :
        respStatus r ≠ statusCode .ok := fun hok => hno i r ⟨p, rfl, hcmd, hresp, hok⟩
    simp only [History.after]
    split
    · exact if_neg (hstatus ‹_› ‹_›)
    · exact if_neg (hstatus ‹_› ‹_›)
    · exact if_neg (hstatus ‹_› ‹_›)
    · rfl
  | _ => rfl

end

/-- One action keeps the order: its command and response show what it did to the queued bytes. -/
theorem FirstInFirstOut.after {h : History} {a : Action} {s t : State} (hfifo : FirstInFirstOut h s)
    (hstep : QueueStep a s t) : FirstInFirstOut (h.after a s t) t := by
  unfold FirstInFirstOut at hfifo ⊢
  cases hstep with
  | reset ha hq =>
    subst ha
    simp [History.after, hq]
  | silent hne hno hq => rw [h.after_of_silent hne hno, hfifo, hq]
  | command i r hok hq =>
    cases i with
    | put p b =>
      obtain ⟨-, hq⟩ := hq
      simp [h.after_put hok, hfifo, hq]
    | get p =>
      obtain ⟨b, rfl, hq⟩ := hq
      simp [h.after_get hok, hfifo, hq]
    | clear p =>
      obtain ⟨-, hq⟩ := hq
      simp [h.after_clear hok, hq]
    | _ =>
      obtain ⟨q, rfl, hcmd, hresp, -⟩ := hok
      simp only [History.after, hcmd, hresp]
      rw [hfifo, show queue t = queue s from hq]

/-- Every list of actions keeps the order, up to where an action stops (R47). -/
theorem FirstInFirstOut.observe (as : List Action) (s : State) (h : History) (hinv : Inv s)
    (hfifo : FirstInFirstOut h s) :
    FirstInFirstOut (Machine.observe as s h).2 (Machine.observe as s h).1 := by
  induction as generalizing s h with
  | nil => exact hfifo
  | cons a as ih =>
    unfold Machine.observe
    cases hperform : perform a s with
    | next t => exact ih t _ (perform_inv a s t hinv hperform) (hfifo.after (perform_queueStep a s t hinv hperform))
    | fault => exact hfifo
    | refused => exact hfifo

/-- Settles O39: with nothing queued and an empty history the order holds, and every action keeps it. -/
theorem bytesLeaveInOrder : Obligations.BytesLeaveInOrder := fun s as hinv hempty =>
  FirstInFirstOut.observe as s ⟨[], []⟩ hinv (by simp [FirstInFirstOut, hempty])

end Sys2Proof.Machine
end

section
/-! PROOFS. 30_encoding.md: decoding and encoding are inverse to each other (R67, R68), the legal words of each port
(R67) and the illegal ones (R66), and the command on a port not legal for it (R63). -/

namespace Sys2Proof

/-! ### Decoding and encoding -/

/-- What decodes to a command is the command's own word, on its own port, if that port is legal for it (R67, R68). -/
theorem decode_eq_cmd_iff (p : Port) (w : CmdWord) (i : Instr) :
    decode p w = .cmd i ↔ i.port = p ∧ i.wellFormed = true ∧ encode i = w := by
  constructor
  · intro h
    obtain ⟨hport, hwf⟩ := Machine.decode_cmd p w i h
    exact ⟨hport, hwf, encode_eq_of_decode p w i h⟩
  · rintro ⟨rfl, hwf, rfl⟩
    exact decode_encode_of_wellFormed i hwf

/-- Settles O1, from what the word of a command decodes to on the command's port. -/
theorem decodeOfEncode : Obligations.DecodeOfEncode := decode_encode_of_wellFormed

/-- Settles O2: the port and its legality are the decoder's last test, and the word is put together from its fields. -/
theorem encodeOfDecode : Obligations.EncodeOfDecode := fun p w i => (decode_eq_cmd_iff p w i).1

/-- Settles O5: each word is the one R68 puts together from the command's operation code and operand. -/
theorem exampleWordsDecode : Obligations.ExampleWordsDecode := by
  refine ⟨?_, ?_, ?_, ?_, ?_, ?_, ?_, ?_, ?_, ?_, ?_⟩ <;> exact (decode_eq_cmd_iff _ _ _).2 (by decide)

/-! ### The legal words (R67) -/

/-- Every byte, from 0x00 to 0xFF. -/
def allBytes : List Byte := (List.range 256).map (BitVec.ofNat 8)

theorem mem_allBytes (b : Byte) : b ∈ allBytes :=
  List.mem_map.2 ⟨b.toNat, List.mem_range.2 b.isLt, by simp⟩

theorem nodup_allBytes : allBytes.Nodup := by
  refine List.Nodup.map_on (fun m hm n hn h => ?_) List.nodup_range
  have hmod : m % 256 = n % 256 := congrArg BitVec.toNat h
  rwa [Nat.mod_eq_of_lt (List.mem_range.1 hm), Nat.mod_eq_of_lt (List.mem_range.1 hn)] at hmod

/-- The commands that are legal on a port (R61, R63), in the order in which R67 lists their words. -/
def legalCommands : Port → List Instr
  | .P => allBytes.map (.put .P) ++ [.avail .P, .free .P]
  | .C => [.get .C, .avail .C, .free .C, .clear .C]
  | .K => [.crcInit .K, .crcRead .K] ++ allBytes.map (.crcFeed .K) ++ allBytes.map (.crcCheck .K)

theorem mem_legalCommands (p : Port) (i : Instr) : i ∈ legalCommands p ↔ i.port = p ∧ i.wellFormed = true := by
  rw [Instr.wellFormed_iff]
  cases i with
  | _ q => cases q <;> cases p <;> simp [legalCommands, Instr.port, Instr.legalPorts, mem_allBytes]

theorem nodup_legalCommands (p : Port) : (legalCommands p).Nodup := by
  have hput : (allBytes.map (Instr.put .P)).Nodup := nodup_allBytes.map fun _ _ h => (Instr.put.inj h).2
  have hfeed : (allBytes.map (Instr.crcFeed .K)).Nodup := nodup_allBytes.map fun _ _ h => (Instr.crcFeed.inj h).2
  have hcheck : (allBytes.map (Instr.crcCheck .K)).Nodup := nodup_allBytes.map fun _ _ h => (Instr.crcCheck.inj h).2
  cases p <;> simp [legalCommands, List.nodup_append, hput, hfeed, hcheck]

/-- The legal words of a port are the words of its legal commands. -/
def legalWords (p : Port) : List CmdWord := (legalCommands p).map encode

theorem mem_legalWords (p : Port) (w : CmdWord) : w ∈ legalWords p ↔ ∃ i, decode p w = .cmd i := by
  simp only [legalWords, List.mem_map, mem_legalCommands, decode_eq_cmd_iff, and_assoc]

/-- No two legal commands of one port share a word: each word decodes to its own command. -/
theorem nodup_legalWords (p : Port) : (legalWords p).Nodup := by
  refine List.Nodup.map_on (fun i hi j hj h => ?_) (nodup_legalCommands p)
  obtain ⟨hport, hwf⟩ := (mem_legalCommands p i).1 hi
  obtain ⟨hport', hwf'⟩ := (mem_legalCommands p j).1 hj
  have hdi : decode p (encode j) = .cmd i := (decode_eq_cmd_iff p _ i).2 ⟨hport, hwf, h⟩
  have hdj : decode p (encode j) = .cmd j := (decode_eq_cmd_iff p _ j).2 ⟨hport', hwf', rfl⟩
  exact Decoded.cmd.inj (hdi.symm.trans hdj)

/-- A word with reserved bits 0, as a number (R60). -/
theorem wordOf_eq_ofNat (op : BitVec 4) (imm : Byte) :
    wordOf op 0#4 imm = BitVec.ofNat 16 (op.toNat * 0x1000 + imm.toNat) := by
  have := op.isLt
  have := imm.isLt
  apply BitVec.eq_of_toNat_eq
  rw [wordOf, BitVec.toNat_append, BitVec.toNat_append, ← Nat.shiftLeft_add_eq_or_of_lt imm.isLt]
  simp [Nat.shiftLeft_eq]
  omega

/-- The words of a command family, one for each byte, are 256 words in a row. -/
theorem map_encode_allBytes (c : Byte → Instr) (op : BitVec 4) (hop : ∀ b, (c b).opcode = op)
    (himm : ∀ b, (c b).imm = b) :
    (allBytes.map c).map encode = (List.range 256).map fun b => BitVec.ofNat 16 (op.toNat * 0x1000 + b) := by
  rw [allBytes, List.map_map, List.map_map]
  refine List.map_congr_left fun b hb => ?_
  have hbyte : (BitVec.ofNat 8 b).toNat = b := Nat.mod_eq_of_lt (List.mem_range.1 hb)
  simp only [Function.comp_apply, encode, hop, himm, wordOf_eq_ofNat, hbyte]

theorem legalWords_P : legalWords .P =
    (List.range 256).map (fun b => BitVec.ofNat 16 (0x1000 + b)) ++ [0x3000#16, 0x4000#16] := by
  rw [legalWords, legalCommands, List.map_append, map_encode_allBytes (.put .P) 0x1#4 (fun _ => rfl) fun _ => rfl]
  rfl

theorem legalWords_C : legalWords .C = [0x2000#16, 0x3000#16, 0x4000#16, 0x5000#16] := by decide

theorem legalWords_K : legalWords .K = [0x8000#16, 0xA000#16] ++
    (List.range 256).map (fun b => BitVec.ofNat 16 (0x9000 + b)) ++
    (List.range 256).map (fun b => BitVec.ofNat 16 (0xB000 + b)) := by
  rw [legalWords, legalCommands, List.map_append, List.map_append,
    map_encode_allBytes (.crcFeed .K) 0x9#4 (fun _ => rfl) fun _ => rfl,
    map_encode_allBytes (.crcCheck .K) 0xB#4 (fun _ => rfl) fun _ => rfl]
  rfl

/-- Settles O3: the legal words of a port are the words of the commands legal on it. -/
theorem legalWordsOfEachPort : Obligations.LegalWordsOfEachPort :=
  ⟨legalWords, legalWords_P, legalWords_C, legalWords_K, by simp [legalWords_P], by simp [legalWords_C],
    by simp [legalWords_K], nodup_legalWords, fun p w => (mem_legalWords p w).symm⟩

/-! ### The illegal words (R66) -/

theorem commandOf_port (p : Port) (op : BitVec 4) (imm : Byte) (i : Instr) (h : commandOf p op imm = some i) :
    i.port = p := by
  unfold commandOf at h
  split_ifs at h <;> cases h <;> rfl

/-- Ground (a): the operation codes that stand for no command. -/
theorem commandOf_eq_none_iff (p : Port) (op : BitVec 4) (imm : Byte) :
    commandOf p op imm = none ↔ op.toNat ∈ [0x0, 0x6, 0x7, 0xC, 0xD, 0xE, 0xF] := by
  have hcodes : ∀ op : BitVec 4, op.toNat ∈ [0x0, 0x6, 0x7, 0xC, 0xD, 0xE, 0xF] ↔
      op ∉ [0x1#4, 0x2#4, 0x3#4, 0x4#4, 0x5#4, 0x8#4, 0x9#4, 0xA#4, 0xB#4] := by decide
  rw [hcodes]
  simp [commandOf, ite_eq_iff]

/-- Ground (c): the operation codes of the commands without an operand. -/
theorem Instr.takesOperand_eq_false_iff (i : Instr) :
    i.takesOperand = false ↔ i.opcode.toNat ∈ [0x2, 0x3, 0x4, 0x5, 0x8, 0xA] := by
  cases i <;> simp [Instr.takesOperand, Instr.opcode]

/-- Ground (d): the operation codes that are legal on each port. -/
theorem Instr.wellFormed_eq_false_iff (i : Instr) :
    i.wellFormed = false ↔
      (i.port = .P ∧ i.opcode.toNat ∉ [0x1, 0x3, 0x4]) ∨ (i.port = .C ∧ i.opcode.toNat ∉ [0x2, 0x3, 0x4, 0x5]) ∨
        (i.port = .K ∧ i.opcode.toNat ∉ [0x8, 0x9, 0xA, 0xB]) := by
  rw [← Bool.not_eq_true, Instr.wellFormed_iff]
  cases i with
  | _ p => cases p <;> simp [Instr.port, Instr.legalPorts, Instr.opcode]

/-- A word whose operation code stands for a command is illegal on the other three grounds only. -/
theorem decode_illegal_iff_of_some (p : Port) (w : CmdWord) (i : Instr)
    (h : commandOf p (opField w) (immField w) = some i) :
    (∃ why, decode p w = .illegal why) ↔
      rsvField w ≠ 0#4 ∨ (i.takesOperand = false ∧ immField w ≠ 0#8) ∨ i.wellFormed = false := by
  simp only [decode, h]
  split_ifs with hrsv hoperand hport
  · exact iff_of_true ⟨_, rfl⟩ (.inl hrsv)
  · exact iff_of_true ⟨_, rfl⟩ (.inr (.inl hoperand))
  · exact iff_of_true ⟨_, rfl⟩ (.inr (.inr hport))
  · exact iff_of_false nofun (not_or.2 ⟨hrsv, not_or.2 ⟨hoperand, hport⟩⟩)

/-- Settles O4: the decoder's four tests are the four grounds of R66, and a ready port's illegal word faults. -/
theorem illegalWordsFault : Obligations.IllegalWordsFault := by
  refine fun p w => ⟨?_, fun s hr hill =>
    Machine.issue_of_raises p w s .illegalCommand hr (.inl ⟨hill, rfl⟩)⟩
  have hreserved := commandOf_eq_none_iff p (opField w) (immField w)
  change _ ↔ (opField w).toNat ∈ _ ∨ rsvField w ≠ 0#4 ∨ ((opField w).toNat ∈ _ ∧ immField w ≠ 0#8) ∨
    (p = .P ∧ (opField w).toNat ∉ _) ∨ (p = .C ∧ (opField w).toNat ∉ _) ∨ (p = .K ∧ (opField w).toNat ∉ _)
  cases hcmd : commandOf p (opField w) (immField w) with
  | none => exact iff_of_true ⟨.reservedOp, by simp only [decode, hcmd]⟩ (.inl (hreserved.1 hcmd))
  | some i =>
    have hcode : ¬ (opField w).toNat ∈ [0x0, 0x6, 0x7, 0xC, 0xD, 0xE, 0xF] := by simp [← hreserved, hcmd]
    rw [decode_illegal_iff_of_some p w i hcmd, i.takesOperand_eq_false_iff, i.wellFormed_eq_false_iff,
      commandOf_port _ _ _ _ hcmd, (commandOf_fields _ _ _ _ hcmd).1, or_iff_right hcode]

end Sys2Proof

namespace Sys2Proof.Machine

open Sys2Proof

/-- Settles O24: every meaning is the common step of R80, which tests the port before the command's own rule. -/
theorem wrongPortFaults : Obligations.WrongPortFaults := by
  intro i s hr hw
  obtain ⟨body, hbody⟩ := exec_runs i
  rw [hbody]
  exact runCommand_wrongPort i s body hr hw

end Sys2Proof.Machine
end

section
/-! PROOFS. 30_encoding.md: commands carried out in a row, and what CRCOF (R69) does with its bytes. -/

namespace Sys2Proof.Machine

open Sys2Proof

/-! ### Commands in a row -/

theorem runCommands_cons {i : Instr} {s t : State} (h : exec i s = .next t) (is : List Instr) :
    runCommands (i :: is) s = runCommands is t := by
  rw [runCommands, h]

theorem runCommands_append {is : List Instr} {s t : State} (h : runCommands is s = .next t) (js : List Instr) :
    runCommands (is ++ js) s = runCommands js t := by
  induction is generalizing s with
  | nil =>
    cases h
    rfl
  | cons i is ih =>
    cases hi : exec i s with
    | next u =>
      rw [runCommands_cons hi] at h
      rw [List.cons_append, runCommands_cons hi, ih h]
    | fault | refused =>
      rw [runCommands, hi] at h
      cases h

/-- The state after several commands on port `p` that changed nothing but its index and its responses: `answered`, once
for each response of the list. -/
def answeredAll (p : Port) (rs : List RespWord) (s : State) : State :=
  { s with
    pc := s.pc.set p (s.pc.get p + rs.length)
    resp := s.resp.set p (s.resp.get p ++ rs) }

@[simp] theorem answeredAll_nil (p : Port) (s : State) : answeredAll p [] s = s := by
  simp [answeredAll]

theorem answeredAll_answered (p : Port) (r : RespWord) (rs : List RespWord) (s : State) :
    answeredAll p rs (answered p r s) = answeredAll p (r :: rs) s := by
  simp [answeredAll, answered, Nat.add_assoc, Nat.add_comm 1]

theorem answered_answeredAll (p : Port) (r : RespWord) (rs : List RespWord) (s : State) :
    answered p r (answeredAll p rs s) = answeredAll p (rs ++ [r]) s := by
  simp [answeredAll, answered, Nat.add_assoc]

/-! ### CRC commands on a ready port with a started CRC -/

theorem exec_crcFeed (s : State) (b : Byte) (hr : Ready .K s) (hv : s.accValid = true) :
    exec (.crcFeed .K b) s =
      .next (answered .K (0x000000#24 ++ crc8Update s.acc b) { s with acc := crc8Update s.acc b }) :=
  (exec_eq_issue _ s).trans
    (CommandEffect.crcFeed hr rfl b (decode_encode_of_wellFormed (.crcFeed .K b) rfl) hv).issue_eq

theorem exec_crcRead (s : State) (hr : Ready .K s) (hv : s.accValid = true) :
    exec (.crcRead .K) s = .next (answered .K (0x000000#24 ++ s.acc) s) :=
  (exec_eq_issue _ s).trans
    (CommandEffect.crcRead hr rfl (decode_encode_of_wellFormed (.crcRead .K) rfl) hv).issue_eq

/-- The responses to CRC.FEED of the bytes `d`, from accumulator `c`: the accumulator after each byte (R104). -/
def feedResponses (c : Byte) (d : List Byte) : List RespWord :=
  (List.range d.length).map fun k => 0x000000#24 ++ (d.take (k + 1)).foldl crc8Update c

theorem feedResponses_cons (c b : Byte) (d : List Byte) :
    feedResponses c (b :: d) = (0x000000#24 ++ crc8Update c b) :: feedResponses (crc8Update c b) d := by
  simp [feedResponses, List.range_succ_eq_map]

/-- Any number of bytes fed in a row: the accumulator is folded over them, and nothing else changes but the answers. -/
theorem runCommands_crcFeed (s : State) (d : List Byte) (hr : Ready .K s) (hv : s.accValid = true) :
    runCommands (d.map (.crcFeed .K)) s =
      .next (answeredAll .K (feedResponses s.acc d) { s with acc := d.foldl crc8Update s.acc }) := by
  induction d generalizing s with
  | nil => exact congrArg Host.Outcome.next (answeredAll_nil .K s).symm
  | cons b d ih =>
    have hrest := ih (answered .K (0x000000#24 ++ crc8Update s.acc b) { s with acc := crc8Update s.acc b }) hr hv
    rw [List.map_cons, runCommands_cons (exec_crcFeed s b hr hv), hrest, feedResponses_cons, ← answeredAll_answered]
    rfl

/-- CRCOF (R69): the accumulator starts at 0xFF, is folded over the bytes, and is answered last. -/
theorem runCommands_crcOf (s : State) (d : List Byte) (hr : Ready .K s) :
    runCommands (crcOf d) s =
      .next (answeredAll .K (0x00000000#32 :: feedResponses 0xFF#8 d ++ [0x000000#24 ++ crc8 d])
        { s with acc := crc8 d, accValid := true }) := by
  have hfeed := runCommands_crcFeed (answered .K 0x00000000#32 { s with acc := 0xFF#8, accValid := true }) d hr rfl
  rw [crcOf, List.cons_append, runCommands_cons (exec_crcInit s hr), runCommands_append hfeed,
    runCommands_cons (exec_crcRead _ ?ready ?started), List.cons_append, ← answeredAll_answered, ← answered_answeredAll]
  case ready => exact hr
  all_goals rfl

/-- Settles O53, from the state after CRCOF and its responses. -/
theorem crcOfComputesTheCrc : Obligations.CrcOfComputesTheCrc := by
  intro s d hr
  refine ⟨_, runCommands_crcOf s d hr, rfl, ?_, ?_, rfl, rfl⟩
  · simp [answeredAll, feedResponses, Nat.add_assoc]
  · simp [answeredAll, feedResponses, PerPort.get, PerPort.set, crc8]

end Sys2Proof.Machine
end

section
/-! PROOFS. 30_encoding.md: the assembler reads the text of a command as the command's word (R68). -/

namespace Sys2Proof.Machine

open Sys2Proof

/-! ### The byte operand in hexadecimal -/

theorem hexDigit_hexChar (n : Nat) (h : n < 16) : hexDigit (hexChar n) = some n := by
  interval_cases n <;> decide

/-- A byte's two hexadecimal digits, high digit first, are read back as the byte. -/
theorem readByte_hex (b : Byte) (cs : List Char) :
    readByte ('0' :: 'x' :: hexChar (b.toNat / 16) :: hexChar (b.toNat % 16) :: cs) = some (b, cs) := by
  have hhigh := hexDigit_hexChar (b.toNat / 16) (Nat.div_lt_of_lt_mul b.isLt)
  have hlow := hexDigit_hexChar (b.toNat % 16) (Nat.mod_lt _ (by decide))
  simp [readByte, readHexByte, hhigh, hlow, Nat.div_add_mod]

/-! ### The mnemonic -/

/-- A name before a text that begins with no character of a name is taken whole. -/
theorem takeName_append (name cs : List Char) (hname : ∀ c ∈ name, isNameChar c = true) (hcs : takeName cs = ([], cs)) :
    takeName (name ++ cs) = (name, cs) := by
  induction name with
  | nil => exact hcs
  | cons c name ih =>
    obtain ⟨hc, hrest⟩ := List.forall_mem_cons.1 hname
    simp [takeName, hc, ih hrest]

theorem isNameChar_of_mem_mnemonic (i : Instr) : ∀ c ∈ mnemonic i, isNameChar c = true := by
  rw [← List.all_eq_true]
  cases i <;> rfl

theorem skipSpaces_mnemonic (i : Instr) (cs : List Char) :
    skipSpaces (' ' :: (mnemonic i ++ cs)) = mnemonic i ++ cs := by
  cases i <;> rfl

/-- A mnemonic names its own command, whose operand is the byte that was looked up with it. -/
theorem commandNamed_mnemonic (i : Instr) (p : Port) (b : Byte) :
    ∃ j, commandNamed (mnemonic i) p b = some j ∧ j.takesOperand = i.takesOperand ∧ j.opcode = i.opcode := by
  cases i <;> exact ⟨_, rfl, rfl, rfl⟩

/-! ### The line -/

theorem assembleCommand_operandFree (i : Instr) (p : Port) (h : i.takesOperand = false) :
    assembleCommand p (mnemonic i) = some (.command p (encode i)) := by
  obtain ⟨j, hj, htakes, hop⟩ := commandNamed_mnemonic i p 0#8
  have hname := takeName_append (mnemonic i) [] (isNameChar_of_mem_mnemonic i) rfl
  rw [List.append_nil] at hname
  simp [assembleCommand, hname, hj, htakes, h, hop, encode, i.imm_of_operandFree h, lineEnds, skipSpaces]

theorem assembleCommand_operand (i : Instr) (p : Port) (h : i.takesOperand = true) :
    assembleCommand p
        (mnemonic i ++ [' ', '0', 'x', hexChar (i.imm.toNat / 16), hexChar (i.imm.toNat % 16)]) =
      some (.command p (encode i)) := by
  obtain ⟨j, hj, htakes, hop⟩ := commandNamed_mnemonic i p 0#8
  have hname (cs : List Char) : takeName (mnemonic i ++ ' ' :: cs) = (mnemonic i, ' ' :: cs) :=
    takeName_append _ _ (isNameChar_of_mem_mnemonic i) rfl
  have hoperand (cs : List Char) : operandText (' ' :: '0' :: cs) = '0' :: cs := rfl
  simp [assembleCommand, hname, hj, htakes, h, hop, hoperand, readByte_hex, encode, lineEnds, skipSpaces]

/-- A line that begins with a port's letter and a colon is a command of that port. -/
theorem assembleLine_port (p : Port) (cs : List Char) :
    assembleLine (portLetter p :: ':' :: cs) = assembleCommand p (skipSpaces cs) := by
  cases p <;> rfl

/-- Settles O6: the port's letter, the mnemonic and the two digits are each read back as what they were written for. -/
theorem assembleOfRender : Obligations.AssembleOfRender := by
  intro i
  rw [renderCommand, List.append_assoc, List.cons_append, List.cons_append, List.singleton_append, assembleLine_port,
    skipSpaces_mnemonic]
  cases h : i.takesOperand with
  | true => exact assembleCommand_operand i i.port h
  | false => exact (congrArg _ (List.append_nil _)).trans (assembleCommand_operandFree i i.port h)

end Sys2Proof.Machine
end

section
/-! PROOFS. 40_ring_buffer.md: what PUT, GET, AVAIL, FREE and CLEAR do on a ready port (R81 to R85), the step that runs
them (R80), and what the counts say of full and empty as the ports see them (R86). -/

namespace Sys2Proof.Machine

open Sys2Proof

/-! ### The step (R80, R131) -/

theorem step_of_schedule {s : State} {a : Action} {rest : List Action} (h : s.schedule = a :: rest) :
    step s = perform a { s with schedule := rest } := by
  simp only [step, h]

/-- Settles O7: the step is the action taken on the rest of the schedule, and each action has its own effect there. -/
theorem stepRunsTheDecodedCommand : Obligations.StepRunsTheDecodedCommand := by
  intro s a rest hsched
  have hstep := step_of_schedule hsched
  refine ⟨hstep, ?_, ?_, ?_, ?_, ?_, ?_⟩
  · rintro p w rfl hw
    have hissue : step s = issue p w { s with schedule := rest } :=
      hstep.trans (perform_command_of_fetch p w { s with schedule := rest } hw)
    exact ⟨hissue, fun i hd => hissue.trans (issue_of_decode p w i _ hd), fun why hd hr =>
      hissue.trans (issue_of_raises p w { s with schedule := rest } .illegalCommand hr (.inl ⟨⟨why, hd⟩, rfl⟩))⟩
  · rintro rfl
    exact hstep
  · rintro rfl
    exact hstep
  · rintro rfl
    exact hstep
  · rintro rfl hen
    exact hstep.trans (congrArg Host.Outcome.next (syncTail_of_enabled { s with schedule := rest } hen))
  · rintro rfl hen
    exact hstep.trans (congrArg Host.Outcome.next (syncHead_of_enabled { s with schedule := rest } hen))

/-! ### PUT and GET on a ready port -/

/-- A command does what is listed for its word. -/
theorem CommandEffect.exec_eq {i : Instr} {s t : State} (h : CommandEffect i.port (encode i) s t) :
    exec i s = .next t :=
  (exec_eq_issue i s).trans h.issue_eq

section

variable {s : State}

theorem exec_put (b : Byte) (hr : Ready .P s) (hhead : s.head < s.cfg.N) (hf : fullSeen s = false) :
    exec (.put .P b) s = .next (answered .P 0x00000000#32 (enqueue b s)) :=
  CommandEffect.exec_eq (i := .put .P b) (.put hr rfl b (decode_encode_of_wellFormed (.put .P b) rfl) hf hhead)

theorem exec_put_full (b : Byte) (hr : Ready .P s) (hf : fullSeen s = true) :
    exec (.put .P b) s = .next (answered .P 0x01000000#32 s) :=
  CommandEffect.exec_eq (i := .put .P b) (.putFull hr rfl b (decode_encode_of_wellFormed (.put .P b) rfl) hf)

theorem exec_get (hr : Ready .C s) (htail : s.tail < s.cfg.N) (he : emptySeen s = false) :
    exec (.get .C) s = .next (answered .C (0x000000#24 ++ slotByte s.tail s) (dequeue s)) :=
  CommandEffect.exec_eq (i := .get .C) (.get hr rfl (decode_encode_of_wellFormed (.get .C) rfl) he htail)

theorem exec_get_empty (hr : Ready .C s) (he : emptySeen s = true) :
    exec (.get .C) s = .next (answered .C 0x02000000#32 s) :=
  CommandEffect.exec_eq (i := .get .C) (.getEmpty hr rfl (decode_encode_of_wellFormed (.get .C) rfl) he)

theorem exec_clear (hr : Ready .C s) (hq : s.pEn = false) :
    exec (.clear .C) s = .next (answered .C 0x00000000#32 (cleared s)) :=
  CommandEffect.exec_eq (i := .clear .C) (.clear hr rfl (decode_encode_of_wellFormed (.clear .C) rfl) hq)

end

/-- Settles O10: a PUT writes the one slot `head`, whose byte alone changes. -/
theorem putStoresAtHead : Obligations.PutStoresAtHead := by
  intro s b hr hhead hne
  have hf : fullSeen s = false := decide_eq_false hne
  refine ⟨_, exec_put b hr hhead hf, rfl, Memory.write_wf _ _ _, ?_, fun a ha => ⟨?_, ?_⟩⟩
  · exact (slotByte_write s.head s.head b s).trans (if_pos rfl)
  · exact (Memory.read?_write s.storage s.head a b).trans (if_neg ha)
  · exact (slotByte_write a s.head b s).trans (if_neg ha)

/-- Settles O11: a PUT tests the producer's view, whatever slots are free behind it (R88). -/
theorem putRefusedWhenFull : Obligations.PutRefusedWhenFull := fun _ b hr hfull =>
  exec_put_full b hr (decide_eq_true hfull)

/-- Settles O12, from what a GET does where the consumer does not see the buffer empty. -/
theorem getTakesFromTail : Obligations.GetTakesFromTail := fun _ hr htail hne =>
  exec_get hr htail (decide_eq_false hne)

/-- Settles O13, from what a GET does where the consumer sees the buffer empty. -/
theorem getRefusedWhenEmpty : Obligations.GetRefusedWhenEmpty := fun _ hr hempty =>
  exec_get_empty hr (decide_eq_true hempty)

/-- CLEAR writes the indices in both view modes and the views in `lagging` mode (R85, R26). -/
theorem cleared_eq (s : State) : cleared s =
    { s with
      head := 0
      tail := 0
      tailViewP := if s.cfg.viewMode = .lagging then 0 else s.tailViewP
      headViewC := if s.cfg.viewMode = .lagging then 0 else s.headViewC } := by
  cases hm : s.cfg.viewMode <;> simp [cleared, writeViews, hm]

/-- Settles O17: port C is never held, so an unfaulted block's CLEAR tests the producer alone. -/
theorem clearZeroesTheIndices : Obligations.ClearZeroesTheIndices := by
  intro s hf hq
  rw [exec_clear ⟨hf, nofun⟩ hq, cleared_eq]

/-! ### The counts (R83, R84) -/

/-- The two ports that are legal for AVAIL and FREE have a count to answer (R63, R83). -/
theorem exists_availOn (p : Port) (s : State) (hp : p = .P ∨ p = .C) : ∃ n, availOn p s = some n := by
  obtain rfl | rfl := hp <;> exact ⟨_, rfl⟩

/-- A count is a remainder `mod N` (R7). -/
theorem availOn_lt {p : Port} {s : State} {n : Nat} (hN : 0 < s.cfg.N) (h : availOn p s = some n) : n < s.cfg.N := by
  obtain ⟨hi, -, rfl⟩ := Option.map_eq_some_iff.1 h
  exact modN_lt _ _ hN

section

variable {p : Port} {s : State} {n : Nat} (hr : Ready p s) (hN : s.cfg.N ≤ 65536) (hp : p = .P ∨ p = .C)

include hr hN hp

theorem exec_avail (hn : n < s.cfg.N) (h : availOn p s = some n) :
    exec (.avail p) s = .next (answered p (BitVec.ofNat 32 n) s) := by
  have hwf : (Instr.avail p).wellFormed = true := by obtain rfl | rfl := hp <;> rfl
  rw [← respWord_count n (by omega)]
  exact CommandEffect.exec_eq (i := .avail p) (.count hr n (.inl ⟨decode_encode_of_wellFormed (.avail p) hwf, h⟩))

theorem exec_free (hn : n < s.cfg.N) (h : freeOn p s = some n) :
    exec (.free p) s = .next (answered p (BitVec.ofNat 32 n) s) := by
  have hwf : (Instr.free p).wellFormed = true := by obtain rfl | rfl := hp <;> rfl
  rw [← respWord_count n (by omega)]
  exact CommandEffect.exec_eq (i := .free p) (.count hr n (.inr ⟨decode_encode_of_wellFormed (.free p) hwf, h⟩))

end

theorem freeOn_of_availOn {p : Port} {s : State} {n : Nat} (h : availOn p s = some n) :
    freeOn p s = some (s.cfg.N - 1 - n) := by
  simp only [freeOn, h, Option.map_some]

/-- Settles O15: the count is the remainder of the two indices the port sees. -/
theorem availAnswersTheSeenCount : Obligations.AvailAnswersTheSeenCount := by
  intro s p hr hcfg hp
  obtain ⟨hN, hN'⟩ := hcfg
  obtain ⟨n, hn⟩ := exists_availOn p s hp
  have hpos : 0 < s.cfg.N := by omega
  have hlt := availOn_lt hpos hn
  refine ⟨n, hlt, ?_, ?_, exec_avail hr hN' hp hlt hn⟩
  · rintro rfl
    cases hn
    exact modN_cast _ _ hpos
  · rintro rfl
    cases hn
    exact modN_cast _ _ hpos

/-- Settles O16: the port's own count and what is left of `N - 1`. -/
theorem freeAnswersTheRest : Obligations.FreeAnswersTheRest := by
  intro s p hr hcfg hp
  obtain ⟨hN, hN'⟩ := hcfg
  obtain ⟨n, hn⟩ := exists_availOn p s hp
  have hlt := availOn_lt (by omega) hn
  exact ⟨n, s.cfg.N - 1 - n, by omega, exec_avail hr hN' hp hlt hn,
    exec_free hr hN' hp (by omega) (freeOn_of_availOn hn)⟩

/-! ### Full and empty, as the ports see them, by the counts (R28, R86) -/

/-- The producer sees the buffer full when no slot but the reserved one is free of bytes it still counts. -/
theorem fullSeen_iff (s : State) (hr : RegistersLegal s) (hv : ViewsLegal s) :
    fullSeen s = true ↔ availableTrue s + lagTail s = s.cfg.N - 1 := by
  constructor
  · intro hf
    have heq : nextIndex s.head s.cfg.N = readTailView s := of_decide_eq_true hf
    obtain ⟨havail, hlagT, -⟩ := occupancy s hr
    obtain ⟨hroom, -, -⟩ := hv
    have hnext := nextIndex_cases s.head s.cfg.N hr.1
    omega
  · intro hcount
    by_contra hf
    have hroom := room_of_not_fullSeen s hr hv (Bool.not_eq_true _ ▸ hf)
    omega

/-- The consumer sees the buffer empty when it has seen none of the queued bytes arrive. -/
theorem emptySeen_iff (s : State) (hr : RegistersLegal s) (hv : ViewsLegal s) :
    emptySeen s = true ↔ availableTrue s = lagHead s := by
  constructor
  · intro he
    have heq : s.tail = readHeadView s := of_decide_eq_true he
    rw [availableTrue, lagHead, heq]
  · intro hcount
    by_contra he
    have hseen := queued_of_not_emptySeen s hr hv (Bool.not_eq_true _ ▸ he)
    omega

theorem freeOn_P_eq (s : State) (hr : RegistersLegal s) (hv : ViewsLegal s) :
    freeOn .P s = some (s.cfg.N - 1 - (availableTrue s + lagTail s)) :=
  freeOn_of_availOn (availOn_P_eq s hr hv)

theorem freeOn_C_eq (s : State) (hr : RegistersLegal s) (hv : ViewsLegal s) :
    freeOn .C s = some (s.cfg.N - 1 - (availableTrue s - lagHead s)) :=
  freeOn_of_availOn (availOn_C_eq s hr hv)

/-- Settles O34: the producer counts too many bytes by its lag, the consumer too few by its own. -/
theorem seenCountsBracketTheTrueOnes : Obligations.SeenCountsBracketTheTrueOnes := by
  intro s hinv
  obtain ⟨⟨hN, hN'⟩, hr, hv, -, -⟩ := hinv
  refine ⟨_, _, _, _, availOn_P_eq s hr hv, availOn_C_eq s hr hv, freeOn_P_eq s hr hv, freeOn_C_eq s hr hv,
    Nat.sub_le _ _, Nat.le_add_right _ _, ?_, ?_, hv.1, Nat.sub_le _ _, by omega, nextIndex_lt _ _ (by omega)⟩ <;>
  · rw [freeTrue]
    omega

/-! ### The refusals -/

/-- A state shows which of two answers it was reached by: the newest response. -/
theorem response_eq_of_answered_eq {p : Port} {q r : RespWord} (s u : State) (hu : u.resp = s.resp)
    (h : answered p q u = answered p r s) : q = r := by
  have hq := newResponse_answered p q s u hu
  rw [h, newResponse_answered p r s s rfl] at hq
  exact (Option.some.inj hq).symm

theorem exec_put_full_iff (b : Byte) (s : State) (hr : Ready .P s) (hhead : s.head < s.cfg.N) :
    exec (.put .P b) s = .next (answered .P 0x01000000#32 s) ↔ fullSeen s = true := by
  refine ⟨fun h => ?_, exec_put_full b hr⟩
  by_contra hf
  rw [exec_put b hr hhead (Bool.not_eq_true _ ▸ hf)] at h
  have hresp := response_eq_of_answered_eq s (enqueue b s) rfl (Host.Outcome.next.inj h)
  exact absurd hresp (by decide)

theorem exec_get_empty_iff (s : State) (hr : Ready .C s) (htail : s.tail < s.cfg.N) :
    exec (.get .C) s = .next (answered .C 0x02000000#32 s) ↔ emptySeen s = true := by
  refine ⟨fun h => ?_, exec_get_empty hr⟩
  by_contra he
  rw [exec_get hr htail (Bool.not_eq_true _ ▸ he)] at h
  have hresp := response_eq_of_answered_eq s (dequeue s) rfl (Host.Outcome.next.inj h)
  have hok := respStatus_ok_byte (slotByte s.tail s)
  rw [hresp] at hok
  exact absurd hok (by decide)

/-- Settles O35: each refusal is the test of full or empty, and each test is a bound of the port's count. -/
theorem countsForetellRefusals : Obligations.CountsForetellRefusals := by
  intro s b hinv hready
  obtain ⟨-, hr, hv, -, -⟩ := hinv
  have hput := (exec_put_full_iff b s hready hr.1).trans (fullSeen_iff s hr hv)
  have hget := (exec_get_empty_iff s ⟨hready.1, nofun⟩ hr.2.1).trans (emptySeen_iff s hr hv)
  have hroom := hv.1
  have hqueued := hv.2.1
  rw [hput, hget, availOn_P_eq s hr hv, availOn_C_eq s hr hv, freeOn_P_eq s hr hv]
  refine ⟨Option.some_inj.symm, ?_, ?_⟩ <;>
  · rw [Option.some_inj]
    omega

/-- Settles O37: the slot `tail` is the oldest queued byte's, and every queued slot has been written (R28). -/
theorem getReadsAWrittenSlot : Obligations.GetReadsAWrittenSlot := by
  intro s hinv hready hne
  obtain ⟨-, hr, hv, ⟨-, -, hwritten⟩, -⟩ := hinv
  have he : emptySeen s = false := decide_eq_false hne
  have hqueued := queued_of_not_emptySeen s hr hv he
  have htail := hwritten 0 (by omega)
  rw [slotAt_zero s hr] at htail
  obtain ⟨b, hb⟩ := Option.isSome_iff_exists.1 htail
  have hbyte : slotByte s.tail s = b := by rw [slotByte, hb, Option.getD_some]
  exact ⟨b, hb, hbyte ▸ exec_get hready hr.2.1 he⟩

end Sys2Proof.Machine
end

section
/-! PROOFS. 40_ring_buffer.md: full and empty are told apart, on every interleaving (R87). -/

namespace Sys2Proof.Machine

open Sys2Proof

/-! ### What a run keeps -/

theorem CommandEffect.cfg_eq {p : Port} {w : CmdWord} {s t : State} (h : CommandEffect p w s t) : t.cfg = s.cfg := by
  cases h with
  | clear => simp
  | _ => rfl

/-- No action writes the parameters (R4). -/
theorem perform_cfg (a : Action) (s t : State) (h : perform a s = .next t) : t.cfg = s.cfg := by
  cases perform_effect a s t h with
  | command p w t hw he => exact he.cfg_eq
  | syncT => exact syncTail_cfg s
  | syncH => exact syncHead_cfg s
  | reset => exact hostReset_cfg s
  | none | quiesce | resume => rfl

/-- What every action keeps holds of the end state of every run. -/
theorem observe_keeps {K : State → Prop} (hkeep : ∀ a s t, K s → perform a s = .next t → K t) (as : List Action)
    (s : State) (h : History) (hs : K s) : K (observe as s h).1 := by
  induction as generalizing s h with
  | nil => exact hs
  | cons a as ih =>
    unfold observe
    cases hperform : perform a s with
    | next t => exact ih t _ (hkeep a s t hs hperform)
    | fault => exact hs
    | refused => exact hs

/-- A run from a legal state ends in a legal state of the same block (R28, R35). -/
theorem observe_inv (as : List Action) (s : State) (h : History) (hinv : Inv s) :
    Inv (observe as s h).1 ∧ (observe as s h).1.cfg = s.cfg :=
  observe_keeps (K := fun t => Inv t ∧ t.cfg = s.cfg)
    (fun a u t ⟨hu, hcfg⟩ ht => ⟨perform_inv a u t hu ht, (perform_cfg a u t ht).trans hcfg⟩) as s h ⟨hinv, rfl⟩

/-! ### Full -/

@[simp] theorem length_queue (s : State) : (queue s).length = availableTrue s := by
  simp [queue]

/-- `N - 1` bytes queued are seen by the producer: R28 leaves its view no room to lag. -/
theorem fullSeen_of_length_queue (s : State) (hr : RegistersLegal s) (hv : ViewsLegal s)
    (h : (queue s).length = s.cfg.N - 1) : fullSeen s = true := by
  rw [length_queue] at h
  have hroom := hv.1
  exact (fullSeen_iff s hr hv).2 (by omega)

/-- PUTs in a row, as many as the producer sees room for: each stores its byte behind those queued and is answered
OK. -/
theorem runCommands_put (s : State) (bs : List Byte) (hinv : Inv s) (hready : Ready .P s)
    (hroom : availableTrue s + lagTail s + bs.length ≤ s.cfg.N - 1) :
    ∃ t, runCommands (bs.map (.put .P)) s = .next t ∧ Inv t ∧ Ready .P t ∧ t.cfg = s.cfg ∧
      queue t = queue s ++ bs ∧ t.resp.onP = s.resp.onP ++ List.replicate bs.length 0x00000000#32 := by
  induction bs generalizing s with
  | nil => exact ⟨s, rfl, hinv, hready, rfl, (List.append_nil _).symm, (List.append_nil _).symm⟩
  | cons b bs ih =>
    have ⟨_, hr, hv, _, _⟩ := hinv
    rw [List.length_cons] at hroom
    have hf : fullSeen s = false := by
      by_contra hfull
      have hcount := (fullSeen_iff s hr hv).1 (Bool.not_eq_false _ ▸ hfull)
      omega
    obtain ⟨havail, hlag, -⟩ := occupancy_enqueue hr hv b hf
    have hroom' : availableTrue (enqueue b s) + lagTail (enqueue b s) + bs.length ≤ s.cfg.N - 1 := by omega
    obtain ⟨t, hrun, ht, hreadyt, hcfg, hqueue, hresp⟩ :=
      ih (answered .P 0x00000000#32 (enqueue b s)) (inv_answered _ _ _ (inv_enqueue b s hinv hf)) hready hroom'
    refine ⟨t, (runCommands_cons (exec_put b hready hr.1 hf) _).trans hrun, ht, hreadyt, hcfg, ?_, ?_⟩
    · rw [hqueue, queue_answered, queue_enqueue b s hr hv hf, List.append_assoc, List.singleton_append]
    · rw [hresp, List.length_cons, List.replicate_succ]
      exact List.append_assoc _ [_] _

/-- With the indices and the producer's view at 0, nothing is queued and the producer sees that. -/
theorem occupancy_of_zero_indices (s : State) (hhead : s.head = 0) (htail : s.tail = 0) (htv : s.tailViewP = 0) :
    availableTrue s = 0 ∧ lagTail s = 0 := by
  have hview : readTailView s = 0 := by cases hm : s.cfg.viewMode <;> simp [readTailView, hm, htv, htail]
  exact ⟨by rw [availableTrue, hhead, htail, modN_self], by rw [lagTail, htail, hview, modN_self]⟩

/-! ### Empty -/

/-- Equal indices leave the consumer's view nothing to show (R28). -/
theorem emptySeen_of_head_eq_tail (s : State) (hr : RegistersLegal s) (hv : ViewsLegal s) (h : s.head = s.tail) :
    emptySeen s = true := by
  have havail : availableTrue s = 0 := by rw [availableTrue, h, modN_self]
  have hlag := hv.2.1
  exact (emptySeen_iff s hr hv).2 (by omega)

/-- Settles O40: with no GET since, the bytes put are those queued, so `N - 1` of them fill the buffer in the producer's
view; and from 0 the producer sees room for `N - 1`. -/
theorem fullAndEmptyAreToldApart : Obligations.FullAndEmptyAreToldApart := by
  refine ⟨fun s as hinv hhead htail _ hgets hputs => ?_, fun s bs hinv hready hhead htail htv hlen => ?_,
    fun s hinv hready heq => ?_⟩
  · have hfifo := bytesLeaveInOrder s as hinv (queue_eq_nil_of_head_eq_tail s (hhead.trans htail.symm))
    rw [hgets, List.nil_append] at hfifo
    obtain ⟨⟨-, hr, hv, -, -⟩, hcfg⟩ := observe_inv as s ⟨[], []⟩ hinv
    refine ⟨_, rfl, hfifo.symm, fun hready b => exec_put_full b hready (fullSeen_of_length_queue _ hr hv ?_)⟩
    rw [← hfifo, hputs, hcfg]
  · obtain ⟨havail, hlag⟩ := occupancy_of_zero_indices s hhead htail htv
    obtain ⟨t, hrun, ⟨-, hr, hv, -, -⟩, hreadyt, hcfg, hqueue, hresp⟩ := runCommands_put s bs hinv hready (by omega)
    rw [queue_eq_nil_of_head_eq_tail s (hhead.trans htail.symm), List.nil_append] at hqueue
    have hfull := fullSeen_of_length_queue t hr hv (by rw [hqueue, hcfg, hlen])
    exact ⟨t, hrun, hqueue, hlen ▸ hresp, fun b => exec_put_full b hreadyt hfull⟩
  · obtain ⟨-, hr, hv, -, -⟩ := hinv
    exact exec_get_empty hready (emptySeen_of_head_eq_tail s hr hv heq)

end Sys2Proof.Machine
end

section
/-! PROOFS. 41_crc8.md: what CRC.INIT, CRC.FEED, CRC.READ and CRC.CHECK do on a ready port (R103 to R106), and that the
CRC unit and the ring buffer do not affect each other (R100). -/

namespace Sys2Proof.Machine

open Sys2Proof

/-! ### CRC commands on a ready port -/

/-- Settles O19, from what CRC.INIT does on a ready port. -/
theorem crcInitStartsAtFF : Obligations.CrcInitStartsAtFF := exec_crcInit

theorem crcShifts_eq_foldl (k : Nat) (c : Byte) : crcShifts k c = (List.range k).foldl (fun c _ => crcShift c) c := by
  induction k generalizing c with
  | zero => rfl
  | succ k ih => rw [crcShifts, ih, List.range_succ_eq_map, List.foldl_cons, List.foldl_map]

/-- Settles O20: the byte update is the eight shift steps in a row, each testing bit 7. -/
theorem crcFeedUpdatesTheAccumulator : Obligations.CrcFeedUpdatesTheAccumulator := fun s b hr hv => by
  have hstep (c : Byte) : crcShift c = if c.getLsbD 7 then (c <<< 1) ^^^ 0x31#8 else c <<< 1 := by
    rw [crcShift, BitVec.msb_eq_getLsbD_last]
  refine ⟨crc8Update s.acc b, ?_, exec_crcFeed s b hr hv⟩
  simp only [crc8Update, crcT, crcShifts_eq_foldl, hstep]

/-- Settles O21, from what CRC.READ does on a ready port with a started CRC. -/
theorem crcReadAnswersTheAccumulator : Obligations.CrcReadAnswersTheAccumulator := exec_crcRead

/-- What CRC.CHECK of the byte `c` answers where the accumulator is `a` (R106). -/
def checkResponse (a c : Byte) : RespWord := if a = c then 0x000000#24 ++ a else 0x030000#24 ++ a

theorem exec_crcCheck (s : State) (c : Byte) (hr : Ready .K s) (hv : s.accValid = true) :
    exec (.crcCheck .K c) s = .next (answered .K (checkResponse s.acc c) s) := by
  have hd := decode_encode_of_wellFormed (.crcCheck .K c) rfl
  apply CommandEffect.exec_eq
  by_cases hc : s.acc = c
  · subst hc
    rw [checkResponse, if_pos rfl]
    exact .crcCheckOk hr rfl hd hv
  · rw [checkResponse, if_neg hc]
    exact .crcCheckMismatch hr rfl c hd hc hv

/-- Settles O22: CRC.CHECK's one answer, by the comparison it makes. -/
theorem crcCheckCompares : Obligations.CrcCheckCompares := fun s c hr hv => by
  rw [exec_crcCheck s c hr hv]
  exact ⟨fun hc => by rw [checkResponse, if_pos hc], fun hc => by rw [checkResponse, if_neg hc]⟩

/-! ### The two units (R20, R100) -/

/-- A block with the elements of its CRC unit replaced. -/
def withCrc (c : Byte) (v : Bool) (s : State) : State := { s with acc := c, accValid := v }

/-- A block with the elements of its ring buffer replaced, `p_en` among them (R20). -/
def withRing (m : Memory) (h l tv hv : Nat) (e : Bool) (s : State) : State :=
  { s with storage := m, head := h, tail := l, tailViewP := tv, headViewC := hv, pEn := e }

theorem cleared_withCrc (c : Byte) (v : Bool) (s : State) : cleared (withCrc c v s) = withCrc c v (cleared s) := by
  cases hm : s.cfg.viewMode <;> simp [cleared, writeViews, withCrc, hm]

section

variable {p : Port} {w : CmdWord} {s t : State}

/-- A decoded command is issued on the port it carries. -/
theorem eq_port_of_decode {i : Instr} (h : decode p w = .cmd i) : p = i.port := (decode_cmd p w i h).1.symm

/-- Off port K, no ground for a fault reads the CRC unit (R123). -/
theorem Raises.set_crc {c : Cause} (h : Raises p w s c) (hp : p ≠ .K) (a : Byte) (v : Bool) :
    Raises p w (withCrc a v s) c := by
  obtain hill | hclear | ⟨⟨b, hd⟩, -⟩ := h
  · exact .inl hill
  · exact .inr (.inl hclear)
  · obtain hd | hd | hd := hd <;> exact absurd (eq_port_of_decode hd) hp

/-- On port K, no ground for a fault reads the ring buffer (R123). -/
theorem Raises.set_ring {c : Cause} (h : Raises .K w s c) (m : Memory) (i l tv hv : Nat) (e : Bool) :
    Raises .K w (withRing m i l tv hv e s) c := by
  obtain hill | ⟨hclear, -⟩ | hcrc := h
  · exact .inl hill
  · cases eq_port_of_decode hclear
  · exact .inr (.inr hcrc)

/-- A command off port K has the same effect whatever the CRC unit holds. -/
theorem CommandEffect.set_crc (he : CommandEffect p w s t) (hp : p ≠ .K) (a : Byte) (v : Bool) :
    CommandEffect p w (withCrc a v s) (withCrc a v t) := by
  cases he with
  | held h => exact .held h
  | faulted h hf => exact .faulted h hf
  | raised hr c hc => exact .raised (s := withCrc a v s) hr c (hc.set_crc hp a v)
  | putFull hr hp b hd hf => exact .putFull hr hp b hd hf
  | put hr hp b hd hf hh => exact .put (s := withCrc a v s) hr hp b hd hf hh
  | getEmpty hr hp hd he => exact .getEmpty hr hp hd he
  | get hr hp hd he ht => exact .get (s := withCrc a v s) hr hp hd he ht
  | count hr n hd => exact .count (s := withCrc a v s) hr n hd
  | clear hr hp hd he =>
    change CommandEffect p w _ (answered .C _ (withCrc a v (cleared s)))
    rw [← cleared_withCrc]
    exact .clear hr hp hd he
  | crcInit _ hK | crcFeed _ hK | crcRead _ hK | crcCheckOk _ hK | crcCheckMismatch _ hK => exact absurd hK hp

/-- A command on port K has the same effect whatever the ring buffer holds. -/
theorem CommandEffect.set_ring (he : CommandEffect .K w s t) (m : Memory) (i l tv hv : Nat) (e : Bool) :
    CommandEffect .K w (withRing m i l tv hv e s) (withRing m i l tv hv e t) := by
  have hready (hr : Ready .K s) : Ready .K (withRing m i l tv hv e s) := ⟨hr.1, nofun⟩
  cases he with
  | held h => cases ((held_eq_true .K s).1 h).1
  | faulted h hf => exact .faulted (s := withRing ..) h hf
  | raised hr c hc => exact .raised (s := withRing ..) (hready hr) c (hc.set_ring m i l tv hv e)
  | count hr n hd => obtain ⟨-, hn⟩ | ⟨-, hn⟩ := hd <;> cases hn
  | crcInit hr hp hd => exact .crcInit (s := withRing ..) (hready hr) hp hd
  | crcFeed hr hp b hd hv => exact .crcFeed (s := withRing ..) (hready hr) hp b hd hv
  | crcRead hr hp hd hv => exact .crcRead (s := withRing ..) (hready hr) hp hd hv
  | crcCheckOk hr hp hd hv => exact .crcCheckOk (s := withRing ..) (hready hr) hp hd hv
  | crcCheckMismatch hr hp c hd hc hv => exact .crcCheckMismatch (s := withRing ..) (hready hr) hp c hd hc hv
  | putFull _ hp | put _ hp | getEmpty _ hp | get _ hp | clear _ hp => cases hp

/-- A word issued in a state has one effect there. -/
theorem CommandEffect.unique {u : State} (ht : CommandEffect p w s t) (hu : CommandEffect p w s u) : t = u :=
  Host.Outcome.next.inj (ht.issue_eq.symm.trans hu.issue_eq)

end

/-- Settles O44: each effect of a command of one unit is an effect with the other unit's elements replaced by any
values, and so by those they hold, which it therefore leaves. -/
theorem unitsAreIndependent : Obligations.UnitsAreIndependent := by
  refine ⟨fun p w s t c v hp h => ?_, fun w s t m h l hv tv e hissue => ?_⟩
  · have he := issue_effect p w s t h
    have hkept : t = withCrc s.acc s.accValid t := he.unique (u := withCrc ..) (he.set_crc hp s.acc s.accValid)
    exact ⟨congrArg (·.acc) hkept, congrArg (·.accValid) hkept, (he.set_crc hp c v).issue_eq⟩
  · have he := issue_effect .K w s t hissue
    have hkept : t = withRing s.storage s.head s.tail s.tailViewP s.headViewC s.pEn t :=
      he.unique (u := withRing ..) (he.set_ring s.storage s.head s.tail s.tailViewP s.headViewC s.pEn)
    exact ⟨congrArg (·.storage) hkept, congrArg (·.head) hkept, congrArg (·.tail) hkept,
      congrArg (·.tailViewP) hkept, congrArg (·.headViewC) hkept, congrArg (·.pEn) hkept,
      (he.set_ring m h l tv hv e).issue_eq⟩

end Sys2Proof.Machine
end

section
/-! PROOFS. 41_crc8.md: the CRC function. Its shift steps are linear over GF(2) and take nothing but 0 to 0, so the CRC
is affine (R112), its residue shows the CRC byte (R110), and an inverted bit of a group is seen (R111). -/

namespace Sys2Proof.Machine

open Sys2Proof

/-! ### Linearity over GF(2) -/

/-- What a shift step adds to the shifted byte: the polynomial, or nothing (R101). -/
def crcFeedback (out : Bool) : Byte := if out then 0x31#8 else 0x00#8

theorem crcFeedback_xor (a b : Bool) : crcFeedback (a ^^ b) = crcFeedback a ^^^ crcFeedback b := by
  cases a <;> cases b <;> rfl

theorem crcShift_eq (c : Byte) : crcShift c = (c <<< 1) ^^^ crcFeedback c.msb := by
  cases h : c.msb <;> simp [crcShift, crcFeedback, h]

theorem crcShift_xor (x y : Byte) : crcShift (x ^^^ y) = crcShift x ^^^ crcShift y := by
  rw [crcShift_eq, crcShift_eq, crcShift_eq, BitVec.msb_xor, BitVec.shiftLeft_xor_distrib, crcFeedback_xor]
  ac_rfl

theorem crcShifts_xor (k : Nat) (x y : Byte) : crcShifts k (x ^^^ y) = crcShifts k x ^^^ crcShifts k y := by
  induction k generalizing x y with
  | zero => rfl
  | succ k ih => rw [crcShifts, crcShift_xor, ih, crcShifts, crcShifts]

theorem crcT_xor (x y : Byte) : crcT (x ^^^ y) = crcT x ^^^ crcT y := crcShifts_xor 8 x y

theorem crc8Update_xor (c₁ c₂ b₁ b₂ : Byte) :
    crc8Update (c₁ ^^^ c₂) (b₁ ^^^ b₂) = crc8Update c₁ b₁ ^^^ crc8Update c₂ b₂ := by
  rw [crc8Update, crc8Update, crc8Update, ← crcT_xor]
  congr 1
  ac_rfl

/-- Sequences of one length: the fold over their XOR is the XOR of the folds. -/
theorem foldl_crc8Update_xor (d e : List Byte) (h : d.length = e.length) (a b : Byte) :
    (d.zipWith (· ^^^ ·) e).foldl crc8Update (a ^^^ b) = d.foldl crc8Update a ^^^ e.foldl crc8Update b := by
  induction d generalizing e a b with
  | nil =>
    cases List.eq_nil_of_length_eq_zero h.symm
    rfl
  | cons x d ih =>
    cases e with
    | nil => cases h
    | cons y e =>
      rw [List.zipWith_cons_cons, List.foldl_cons, crc8Update_xor, ih e (Nat.succ.inj h)]
      rfl

theorem zipWith_xor_replicate_zero (d : List Byte) {n : Nat} (h : d.length = n) :
    d.zipWith (· ^^^ ·) (List.replicate n 0#8) = d := by
  subst h
  induction d with
  | nil => rfl
  | cons x d ih => simp [List.replicate_succ, ih]

/-- The CRC of sequences of one length is affine: linear but for the CRC of that many zeros (R112). -/
theorem crc8_xor (d e : List Byte) (h : d.length = e.length) :
    crc8 (d.zipWith (· ^^^ ·) e) ^^^ crc8 (List.replicate d.length 0#8) = crc8 d ^^^ crc8 e := by
  have hlen : (d.zipWith (· ^^^ ·) e).length = d.length := by simp [h]
  calc crc8 (d.zipWith (· ^^^ ·) e) ^^^ crc8 (List.replicate d.length 0#8)
      = ((d.zipWith (· ^^^ ·) e).zipWith (· ^^^ ·) (List.replicate d.length 0#8)).foldl crc8Update
          (0xFF#8 ^^^ 0xFF#8) :=
        (foldl_crc8Update_xor _ _ (by simp [hlen]) _ _).symm
    _ = (d.zipWith (· ^^^ ·) e).foldl crc8Update (0xFF#8 ^^^ 0xFF#8) := by rw [zipWith_xor_replicate_zero _ hlen]
    _ = crc8 d ^^^ crc8 e := foldl_crc8Update_xor d e h _ _

/-! ### The single-bit images (R112) -/

/-- The XOR of the first `n` single bits that are set in `x`. -/
def xorOfBits {w : Nat} (x : BitVec w) (n : Nat) : BitVec w :=
  (List.range n).foldl (fun r k => if x.getLsbD k then r ^^^ BitVec.twoPow w k else r) 0#w

theorem xorOfBits_succ {w : Nat} (x : BitVec w) (n : Nat) :
    xorOfBits x (n + 1) = if x.getLsbD n then xorOfBits x n ^^^ BitVec.twoPow w n else xorOfBits x n := by
  rw [xorOfBits, List.range_succ, List.foldl_append]
  rfl

theorem getLsbD_xorOfBits {w : Nat} (x : BitVec w) (n j : Nat) :
    (xorOfBits x n).getLsbD j = (decide (j < n) && x.getLsbD j) := by
  induction n with
  | zero => simp [xorOfBits]
  | succ n ih =>
    have hbit : (xorOfBits x (n + 1)).getLsbD j = ((xorOfBits x n).getLsbD j ^^ (decide (n = j) && x.getLsbD n)) := by
      cases hn : x.getLsbD n with
      | false => simp [xorOfBits_succ, hn]
      | true => simp [xorOfBits_succ, hn, BitVec.getLsbD_twoPow, BitVec.lt_of_getLsbD hn]
    rw [hbit, ih]
    obtain rfl | hne := eq_or_ne n j
    · simp
    · have hlt : j < n + 1 ↔ j < n := by omega
      simp [hne, hlt]

theorem xorOfBits_width {w : Nat} (x : BitVec w) : xorOfBits x w = x :=
  BitVec.eq_of_getLsbD_eq fun j hj => by rw [getLsbD_xorOfBits, decide_eq_true hj, Bool.true_and]

/-- `T`, being linear, is the XOR of its images of the bits that are set (R112). -/
theorem crcT_eq_xor_images (x : Byte) :
    crcT x = (List.range 8).foldl (fun r k => if x.getLsbD k then r ^^^ crcT (BitVec.twoPow 8 k) else r) 0#8 := by
  calc crcT x = crcT (xorOfBits x 8) := by rw [xorOfBits_width]
    _ = _ := (List.foldl_hom crcT fun r k => by rw [apply_ite crcT, crcT_xor]).symm

/-- Settles O50: the byte update and `T` are linear, so the images of the single bits, evaluated here, give `T`. -/
theorem crcIsAffine : Obligations.CrcIsAffine := by
  refine ⟨crc8Update_xor, crcT_xor, fun x => ?_, crc8_xor⟩
  have himages : (List.range 8).map (fun k => (k, crcT (BitVec.twoPow 8 k))) = [(0, 0x31#8), (1, 0x62#8),
    (2, 0xC4#8), (3, 0xB9#8), (4, 0x43#8), (5, 0x86#8), (6, 0x3D#8), (7, 0x7A#8)] := by decide
  rw [← himages, List.foldl_map]
  exact crcT_eq_xor_images x

/-! ### The residue (R110) -/

/-- The bit shifted out of a byte comes in again at bit 0: the polynomial is odd. -/
theorem crcShift_getLsbD_zero (c : Byte) : (crcShift c).getLsbD 0 = c.msb := by
  cases h : c.msb <;> simp [crcShift, h]

/-- A shift step takes nothing but 0 to 0: where bit 7 was set, bit 0 is set now. -/
theorem crcShift_eq_zero_iff (c : Byte) : crcShift c = 0#8 ↔ c = 0#8 := by
  refine ⟨fun h => ?_, ?_⟩
  · have hmsb : c.msb = false := by rw [← crcShift_getLsbD_zero, h]; rfl
    rw [crcShift, hmsb, if_neg Bool.false_ne_true] at h
    have hdouble : c.toNat * 2 % 256 = 0 := by simpa [Nat.shiftLeft_eq] using congrArg BitVec.toNat h
    have hsmall : c.toNat < 128 := by simpa [BitVec.msb_eq_decide] using hmsb
    exact BitVec.eq_of_toNat_eq (by simpa using by omega)
  · rintro rfl
    rfl

theorem crcShifts_eq_zero_iff (k : Nat) (c : Byte) : crcShifts k c = 0#8 ↔ c = 0#8 := by
  induction k generalizing c with
  | zero => rfl
  | succ k ih => rw [crcShifts, ih, crcShift_eq_zero_iff]

theorem crc8Update_eq_zero_iff (c b : Byte) : crc8Update c b = 0#8 ↔ c = b :=
  (crcShifts_eq_zero_iff 8 (c ^^^ b)).trans BitVec.xor_eq_zero_iff

@[simp] theorem crc8Update_self (c : Byte) : crc8Update c c = 0#8 := (crc8Update_eq_zero_iff c c).2 rfl

/-- Settles O51: the byte update takes nothing but equal bytes to 0. -/
theorem residueIsZeroOnlyForTheCrc : Obligations.ResidueIsZeroOnlyForTheCrc := fun d c =>
  (crc8Update_eq_zero_iff (crc8 d) c).trans eq_comm

/-! ### Inverted bits of a group (R111) -/

theorem groupValid_iff (g : Group) : groupValid g = true ↔ crc8 [g.msb, g.lsb] = g.crc := decide_eq_true_iff

/-- A group is valid exactly when the residue of its three bytes is 0 (R107, R110). -/
theorem groupValid_iff_residue (g : Group) : groupValid g = true ↔ crc8 (groupBytes g) = 0#8 :=
  (groupValid_iff g).trans (crc8Update_eq_zero_iff _ _).symm

/-- The group that 24 bits are, its first byte highest. -/
def groupOfBits (v : BitVec 24) : Group := ⟨v.extractLsb' 16 8, v.extractLsb' 8 8, v.extractLsb' 0 8⟩

theorem groupBytes_groupOfBits_xor (v e : BitVec 24) :
    groupBytes (groupOfBits (v ^^^ e)) =
      (groupBytes (groupOfBits v)).zipWith (· ^^^ ·) (groupBytes (groupOfBits e)) := by
  simp [groupBytes, groupOfBits, BitVec.extractLsb'_xor]

/-- What an error `e` adds to the residue of a group, by linearity the same for every group. -/
def syndrome (e : BitVec 24) : Byte := (groupBytes (groupOfBits e)).foldl crc8Update 0x00#8

theorem crc8_groupOfBits_xor (v e : BitVec 24) :
    crc8 (groupBytes (groupOfBits (v ^^^ e))) = crc8 (groupBytes (groupOfBits v)) ^^^ syndrome e := by
  rw [groupBytes_groupOfBits_xor, crc8, crc8, syndrome]
  exact foldl_crc8Update_xor (groupBytes (groupOfBits v)) (groupBytes (groupOfBits e)) rfl 0xFF#8 0x00#8

theorem groupValid_xor_iff (v e : BitVec 24) (h : groupValid (groupOfBits v) = true) :
    groupValid (groupOfBits (v ^^^ e)) = true ↔ syndrome e = 0#8 := by
  rw [groupValid_iff_residue, crc8_groupOfBits_xor, (groupValid_iff_residue _).1 h, BitVec.zero_xor]

/-- An error within one byte adds to the residue: the byte update takes nothing but equal bytes to 0. -/
theorem foldl_crc8Update_oneByte (b : Byte) :
    ([b, 0#8, 0#8].foldl crc8Update 0#8 = 0#8 ↔ b = 0#8) ∧ ([0#8, b, 0#8].foldl crc8Update 0#8 = 0#8 ↔ b = 0#8) ∧
      ([0#8, 0#8, b].foldl crc8Update 0#8 = 0#8 ↔ b = 0#8) := by
  simp [crc8Update_eq_zero_iff, @eq_comm _ 0#8 b]

theorem twoPow_ne_zero {w : Nat} (k : Nat) (hk : k < w) : BitVec.twoPow w k ≠ 0#w := fun h => by
  simpa [BitVec.getLsbD_twoPow, hk] using congrArg (·.getLsbD k) h

/-- Of the parts of a word with one bit set, the one that holds the bit is not 0. -/
theorem extractLsb'_twoPow {w : Nat} (k i n : Nat) (hk : k < w) :
    (BitVec.twoPow w k).extractLsb' i n = if i ≤ k ∧ k < i + n then BitVec.twoPow n (k - i) else 0#n := by
  apply BitVec.eq_of_getLsbD_eq
  intro j hj
  rw [BitVec.getLsbD_extractLsb', BitVec.getLsbD_twoPow, Bool.eq_iff_iff]
  split_ifs <;> simp [BitVec.getLsbD_twoPow] <;> omega

/-- The bytes of a one-bit error: one of the three holds the bit, and the others are 0. -/
theorem groupBytes_singleBit (k : Nat) (hk : k < 24) : ∃ b : Byte, b ≠ 0#8 ∧
    (groupBytes (groupOfBits (BitVec.twoPow 24 k)) = [b, 0#8, 0#8] ∨
      groupBytes (groupOfBits (BitVec.twoPow 24 k)) = [0#8, b, 0#8] ∨
      groupBytes (groupOfBits (BitVec.twoPow 24 k)) = [0#8, 0#8, b]) := by
  simp only [groupBytes, groupOfBits, extractLsb'_twoPow k _ _ hk]
  obtain hlow | hmid | hhigh : k < 8 ∨ (8 ≤ k ∧ k < 16) ∨ 16 ≤ k := by omega
  · rw [if_neg (by omega), if_neg (by omega), if_pos (by omega)]
    exact ⟨_, twoPow_ne_zero (k - 0) (by omega), .inr (.inr rfl)⟩
  · rw [if_neg (by omega), if_pos (by omega), if_neg (by omega)]
    exact ⟨_, twoPow_ne_zero (k - 8) (by omega), .inr (.inl rfl)⟩
  · rw [if_pos (by omega), if_neg (by omega), if_neg (by omega)]
    exact ⟨_, twoPow_ne_zero (k - 16) (by omega), .inl rfl⟩

theorem syndrome_singleBit_ne_zero (k : Nat) (hk : k < 24) : syndrome (BitVec.twoPow 24 k) ≠ 0#8 := by
  obtain ⟨b, hb, hbytes⟩ := groupBytes_singleBit k hk
  obtain ⟨hmsb, hlsb, hcrc⟩ := foldl_crc8Update_oneByte b
  obtain h | h | h := hbytes <;> rw [syndrome, h]
  · exact mt hmsb.1 hb
  · exact mt hlsb.1 hb
  · exact mt hcrc.1 hb

/-- Settles O52: an error leaves a valid group valid only where its own residue is 0, which no single bit's is. -/
theorem singleBitErrorsAreDetected : Obligations.SingleBitErrorsAreDetected := fun v k hk hvalid =>
  Bool.eq_false_iff.2 fun hinv => syndrome_singleBit_ne_zero k hk ((groupValid_xor_iff v _ hvalid).1 hinv)

end Sys2Proof.Machine
end

section
/-! PROOFS. 41_crc8.md: what GROUPCHECK and FRAMECHECK (R69) answer, and that their checks decide the validity of groups
and frames (R107, R108). -/

namespace Sys2Proof.Machine

open Sys2Proof

theorem answeredAll_answeredAll (p : Port) (rs qs : List RespWord) (s : State) :
    answeredAll p qs (answeredAll p rs s) = answeredAll p (rs ++ qs) s := by
  simp [answeredAll, Nat.add_assoc]

/-- The responses on port K after several commands there. -/
theorem onK_answeredAll (rs : List RespWord) (s : State) : (answeredAll .K rs s).resp.onK = s.resp.onK ++ rs := rfl

/-! ### The status of a check (R64, R106) -/

theorem respStatus_checkResponse (a c : Byte) :
    respStatus (checkResponse a c) = statusCode (if a = c then .ok else .mismatch) := by
  rw [checkResponse, ← respWord_ok_byte, ← respWord_mismatch_byte]
  split_ifs <;> exact (respWord_fields _ _).1

theorem respStatus_checkResponse_ok_iff (a c : Byte) : respStatus (checkResponse a c) = 0x00#8 ↔ a = c := by
  rw [respStatus_checkResponse]
  by_cases h : a = c <;> simp [h, statusCode]

theorem respStatus_checkResponse_mismatch_iff (a c : Byte) :
    respStatus (checkResponse a c) = 0x03#8 ↔ a ≠ c := by
  rw [respStatus_checkResponse]
  by_cases h : a = c <;> simp [h, statusCode]

/-! ### GROUPCHECK and FRAMECHECK (R69) -/

/-- What GROUPCHECK answers: to CRC.INIT, to each of the two bytes fed, and to CRC.CHECK. -/
def groupResponses (g : Group) : List RespWord :=
  0x00000000#32 :: feedResponses 0xFF#8 [g.msb, g.lsb] ++ [checkResponse (crc8 [g.msb, g.lsb]) g.crc]

/-- CRC.CHECK, the last of GROUPCHECK, answers OK exactly for a valid group (R107). -/
theorem respStatus_check_ok_iff_valid (g : Group) :
    respStatus (checkResponse (crc8 [g.msb, g.lsb]) g.crc) = 0x00#8 ↔ groupValid g = true :=
  (respStatus_checkResponse_ok_iff _ _).trans (groupValid_iff g).symm

/-- CRC.CHECK, the last of GROUPCHECK, answers MISMATCH exactly for an invalid group (R107). -/
theorem respStatus_check_mismatch_iff_invalid (g : Group) :
    respStatus (checkResponse (crc8 [g.msb, g.lsb]) g.crc) = 0x03#8 ↔ groupValid g = false := by
  rw [Bool.eq_false_iff, ne_eq, groupValid_iff]
  exact respStatus_checkResponse_mismatch_iff _ _

/-- GROUPCHECK: the accumulator starts at 0xFF, is folded over the data bytes, and is compared last. -/
theorem runCommands_groupCheck (s : State) (g : Group) (hr : Ready .K s) :
    runCommands (groupCheck g) s =
      .next (answeredAll .K (groupResponses g) { s with acc := crc8 [g.msb, g.lsb], accValid := true }) := by
  have hfeed := runCommands_crcFeed (answered .K 0x00000000#32 { s with acc := 0xFF#8, accValid := true })
    [g.msb, g.lsb] hr rfl
  have hlist : groupCheck g = .crcInit .K :: ([g.msb, g.lsb].map (.crcFeed .K) ++ [.crcCheck .K g.crc]) := rfl
  rw [hlist, runCommands_cons (exec_crcInit s hr), runCommands_append hfeed,
    runCommands_cons (exec_crcCheck _ g.crc ?ready ?started), groupResponses, List.cons_append, ← answeredAll_answered,
    ← answered_answeredAll]
  case ready => exact hr
  all_goals rfl

/-- FRAMECHECK: the second group is checked from its own CRC.INIT, whatever the first left in the accumulator. -/
theorem runCommands_frameCheck (s : State) (f : Frame) (hr : Ready .K s) :
    runCommands (frameCheck f) s =
      .next (answeredAll .K (groupResponses f.temperature ++ groupResponses f.humidity)
        { s with acc := crc8 [f.humidity.msb, f.humidity.lsb], accValid := true }) := by
  rw [frameCheck, runCommands_append (runCommands_groupCheck s f.temperature hr), runCommands_groupCheck _ _ ?ready,
    ← answeredAll_answeredAll]
  case ready => exact hr
  rfl

/-- Settles O54: the last response is CRC.CHECK's, whose status tells whether the group is valid. -/
theorem groupCheckDecidesValidity : Obligations.GroupCheckDecidesValidity := by
  intro s g hr
  refine ⟨groupValid_iff g, _, _, runCommands_groupCheck s g hr, rfl, ?last, ?count, respStatus_check_ok_iff_valid g,
    respStatus_check_mismatch_iff_invalid g⟩
  case last => rw [onK_answeredAll, groupResponses, ← List.append_assoc, List.getLast?_concat]
  case count =>
    rw [onK_answeredAll, List.length_append]
    rfl

theorem frameValid_iff (f : Frame) :
    frameValid f = true ↔ groupValid f.temperature = true ∧ groupValid f.humidity = true := Bool.and_eq_true_iff

/-- Settles O55: each group's check decides its validity, from its own CRC.INIT. -/
theorem frameCheckDecidesValidity : Obligations.FrameCheckDecidesValidity := by
  intro s f hr
  have htemperature := respStatus_check_ok_iff_valid f.temperature
  have hhumidity := respStatus_check_ok_iff_valid f.humidity
  refine ⟨?_, _, _, _, _, runCommands_frameCheck s f hr, rfl, rfl, rfl, rfl, htemperature, hhumidity, ?_⟩
  · rw [frameValid_iff, groupValid_iff, groupValid_iff]
  · exact (and_congr htemperature hhumidity).trans (frameValid_iff f).symm

end Sys2Proof.Machine
end

section
/-! PROOFS. 60_exceptions.md: the outcomes of a command (R120), fault entry (R121), the faulted block (R122), the order
of a command's tests (R124), the host's enable (R132) and the held producer (R134). -/

namespace Sys2Proof.Machine

open Sys2Proof

/-! ### Every command has an effect (R120) -/

theorem mem_legalPorts_of_decode {p : Port} {w : CmdWord} {i : Instr} (h : decode p w = .cmd i) :
    i.port ∈ i.legalPorts :=
  i.wellFormed_iff.1 (decode_cmd p w i h).2

section

variable {p : Port} {w : CmdWord} {s : State} {i : Instr}

/-- A command on a ready port has an effect, if the slots that the two indices name exist. -/
theorem exists_commandEffect_of_decode (hr : Ready p s) (hd : decode p w = .cmd i) (hhead : s.head < s.cfg.N)
    (htail : s.tail < s.cfg.N) : ∃ t, CommandEffect p w s t := by
  have hlegal := mem_legalPorts_of_decode hd
  obtain rfl := eq_port_of_decode hd
  cases i with
  | put q b =>
    obtain rfl : q = .P := List.mem_singleton.1 hlegal
    cases hf : fullSeen s with
    | true => exact ⟨_, .putFull hr rfl b hd hf⟩
    | false => exact ⟨_, .put hr rfl b hd hf hhead⟩
  | get q =>
    obtain rfl : q = .C := List.mem_singleton.1 hlegal
    cases he : emptySeen s with
    | true => exact ⟨_, .getEmpty hr rfl hd he⟩
    | false => exact ⟨_, .get hr rfl hd he htail⟩
  | avail q =>
    obtain ⟨n, hn⟩ := exists_availOn q s (List.mem_pair.1 hlegal)
    exact ⟨_, .count hr n (.inl ⟨hd, hn⟩)⟩
  | free q =>
    obtain ⟨n, hn⟩ := exists_availOn q s (List.mem_pair.1 hlegal)
    exact ⟨_, .count hr _ (.inr ⟨hd, freeOn_of_availOn hn⟩)⟩
  | clear q =>
    obtain rfl : q = .C := List.mem_singleton.1 hlegal
    cases he : s.pEn with
    | true => exact ⟨_, .raised hr _ (.inr (.inl ⟨hd, he, rfl⟩))⟩
    | false => exact ⟨_, .clear hr rfl hd he⟩
  | crcInit q =>
    obtain rfl : q = .K := List.mem_singleton.1 hlegal
    exact ⟨_, .crcInit hr rfl hd⟩
  | crcFeed q b =>
    obtain rfl : q = .K := List.mem_singleton.1 hlegal
    cases hv : s.accValid with
    | true => exact ⟨_, .crcFeed hr rfl b hd hv⟩
    | false => exact ⟨_, .raised hr _ (.inr (.inr ⟨⟨b, .inl hd⟩, hv, rfl⟩))⟩
  | crcRead q =>
    obtain rfl : q = .K := List.mem_singleton.1 hlegal
    cases hv : s.accValid with
    | true => exact ⟨_, .crcRead hr rfl hd hv⟩
    | false => exact ⟨_, .raised hr _ (.inr (.inr ⟨⟨0#8, .inr (.inl hd)⟩, hv, rfl⟩))⟩
  | crcCheck q c =>
    obtain rfl : q = .K := List.mem_singleton.1 hlegal
    cases hv : s.accValid with
    | false => exact ⟨_, .raised hr _ (.inr (.inr ⟨⟨c, .inr (.inr hd)⟩, hv, rfl⟩))⟩
    | true =>
      by_cases hc : s.acc = c
      · subst hc
        exact ⟨_, .crcCheckOk hr rfl hd hv⟩
      · exact ⟨_, .crcCheckMismatch hr rfl c hd hc hv⟩

end

/-- Issuing a word never stops, if the slots that the two indices name exist (R120, log entry 13). -/
theorem exists_commandEffect (p : Port) (w : CmdWord) (s : State) (hhead : s.head < s.cfg.N)
    (htail : s.tail < s.cfg.N) : ∃ t, CommandEffect p w s t := by
  cases hh : held p s with
  | true => exact ⟨_, .held hh⟩
  | false =>
    by_cases hf : s.faultCode = 0x00#8
    · have hr : Ready p s := (ready_iff p s).2 ⟨hf, hh⟩
      cases hd : decode p w with
      | illegal why => exact ⟨_, .raised hr _ (.inl ⟨⟨why, hd⟩, rfl⟩)⟩
      | cmd i => exact exists_commandEffect_of_decode hr hd hhead htail
    · exact ⟨_, .faulted hh hf⟩

/-! ### The answer of a command that is not held, by its status (R65, R80) -/

/-- The ports' own state is the same: indices, command lists, responses and the schedule (R32). -/
structure SamePorts (s u : State) : Prop where
  pc : u.pc = s.pc
  cmds : u.cmds = s.cmds
  resp : u.resp = s.resp
  schedule : u.schedule = s.schedule

theorem SamePorts.refl (s : State) : SamePorts s s := ⟨rfl, rfl, rfl, rfl⟩

/-- How a word `w` on port `p` is answered in state `s`: the status, the data, and the state before the response is
given and the index advanced. -/
inductive Answer (p : Port) (w : CmdWord) (s : State) : Status → BitVec 16 → State → Prop where
  | ok (d : BitVec 16) (u : State) (hports : SamePorts s u) (hf : u.faultCode = s.faultCode) : Answer p w s .ok d u
  | full : Answer p w s .full 0x0000#16 s
  | empty : Answer p w s .empty 0x0000#16 s
  | mismatch (d : BitVec 16) : Answer p w s .mismatch d s
  | faulted (hf : s.faultCode ≠ 0x00#8) : Answer p w s .fault 0x0000#16 s
  | raised (hf : s.faultCode = 0x00#8) (c : Cause) (hc : Raises p w s c) :
      Answer p w s .fault 0x0000#16 { s with faultCode := causeCode c }

section

variable {p : Port} {w : CmdWord} {s t u : State} {st : Status} {d : BitVec 16}

/-- An answer is one also under the response word written out, as the effects give it. -/
theorem exists_answer_of_respWord {r : RespWord} (hr : respWord st d = r) (ha : Answer p w s st d u) :
    ∃ st d u', Answer p w s st d u' ∧ answered p r u = answered p (respWord st d) u' :=
  ⟨st, d, u, ha, by rw [hr]⟩

/-- An effect is that the command is held, or an answer (R80, R120). -/
theorem held_or_answer_of_effect (he : CommandEffect p w s t) :
    (held p s = true ∧ t = s) ∨
      (held p s = false ∧ ∃ st d u, Answer p w s st d u ∧ t = answered p (respWord st d) u) := by
  have hready (hr : Ready p s) : held p s = false := ((ready_iff p s).1 hr).2
  cases he with
  | held hh => exact .inl ⟨hh, rfl⟩
  | faulted hh hf => exact .inr ⟨hh, exists_answer_of_respWord respWord_fault (.faulted hf)⟩
  | raised hr c hc => exact .inr ⟨hready hr, exists_answer_of_respWord respWord_fault (.raised hr.1 c hc)⟩
  | putFull hr hp =>
    subst hp
    exact .inr ⟨hready hr, exists_answer_of_respWord respWord_full .full⟩
  | getEmpty hr hp =>
    subst hp
    exact .inr ⟨hready hr, exists_answer_of_respWord respWord_empty .empty⟩
  | put hr hp | crcInit hr hp =>
    subst hp
    exact .inr ⟨hready hr, exists_answer_of_respWord respWord_ok (.ok _ _ ⟨rfl, rfl, rfl, rfl⟩ rfl)⟩
  | get hr hp | crcFeed hr hp | crcRead hr hp | crcCheckOk hr hp =>
    subst hp
    exact .inr ⟨hready hr, exists_answer_of_respWord (respWord_ok_byte _) (.ok _ _ ⟨rfl, rfl, rfl, rfl⟩ rfl)⟩
  | count hr n => exact .inr ⟨hready hr, _, _, _, .ok (count16 n) s (.refl s) rfl, rfl⟩
  | clear hr hp =>
    subst hp
    refine .inr ⟨hready hr, exists_answer_of_respWord respWord_ok (.ok _ _ ?_ (writeViews_faultCode _ _ _))⟩
    exact ⟨writeViews_pc _ _ _, writeViews_cmds _ _ _, writeViews_resp _ _ _, writeViews_schedule _ _ _⟩
  | crcCheckMismatch hr hp =>
    subst hp
    exact .inr ⟨hready hr, exists_answer_of_respWord (respWord_mismatch_byte _) (.mismatch _)⟩

theorem Answer.samePorts (ha : Answer p w s st d u) : SamePorts s u := by
  cases ha with
  | ok d u hports => exact hports
  | full | empty | mismatch | faulted => exact .refl s
  | raised => exact ⟨rfl, rfl, rfl, rfl⟩

/-- FULL, EMPTY and MISMATCH leave the block as it was (R65). -/
theorem Answer.eq_of_refused (ha : Answer p w s st d u) (hst : (statusCode st).toNat ∈ [0x01, 0x02, 0x03]) :
    u = s := by
  cases ha with
  | full | empty | mismatch => rfl
  | ok | faulted | raised => exact absurd hst (by decide)

/-- FULL, EMPTY and FAULT carry no data (R64, R65). -/
theorem Answer.data_eq_zero (ha : Answer p w s st d u) (hst : (statusCode st).toNat ∈ [0x01, 0x02, 0xFF]) :
    d = 0x0000#16 := by
  cases ha with
  | full | empty | faulted | raised => rfl
  | ok | mismatch => exact absurd hst (by decide)

/-- An answer FAULT changes the fault code alone, and that only from 0 (R121). -/
theorem Answer.precise (ha : Answer p w s .fault d u) :
    d = 0x0000#16 ∧ u = { s with faultCode := u.faultCode } ∧
      (s.faultCode ≠ 0x00#8 → u.faultCode = s.faultCode) ∧
      (s.faultCode = 0x00#8 → u.faultCode = 0x01#8 ∨ u.faultCode = 0x02#8 ∨ u.faultCode = 0x03#8) := by
  cases ha with
  | faulted hf => exact ⟨rfl, rfl, fun _ => rfl, fun h => absurd h hf⟩
  | raised hf c => exact ⟨rfl, rfl, fun h => absurd hf h, fun _ => causeCode_mem c⟩

/-- What raises nothing on an unfaulted block is answered with one of the four other statuses (R123, R124). -/
theorem Answer.unfaulted (ha : Answer p w s st d u) (hf : s.faultCode = 0x00#8) (hc : ∀ c, ¬ Raises p w s c) :
    u.faultCode = 0x00#8 ∧ (statusCode st).toNat ∈ [0x00, 0x01, 0x02, 0x03] := by
  cases ha with
  | ok d u _ hsame => exact ⟨hsame.trans hf, by decide⟩
  | full | empty | mismatch => exact ⟨hf, by decide⟩
  | faulted hne => exact absurd hf hne
  | raised _ c hraises => exact absurd hraises (hc c)

end

/-! ### The response word's fields (R64, R65) -/

theorem statusCode_mem (st : Status) : (statusCode st).toNat ∈ [0x00, 0x01, 0x02, 0x03, 0xFF] := by
  cases st <;> decide

theorem eq_fault_of_statusCode {st : Status} (h : statusCode st = 0xFF#8) : st = .fault := by
  cases st with
  | fault => rfl
  | ok | full | empty | mismatch => exact absurd h (by decide)

/-- Bits 23:16 of a response are 0 (R64). -/
theorem respWord_reserved (st : Status) (d : BitVec 16) : (respWord st d).extractLsb' 16 8 = 0x00#8 := by
  apply BitVec.eq_of_getLsbD_eq
  intro k hk
  simp only [respWord, BitVec.getLsbD_extractLsb', BitVec.getLsbD_append]
  interval_cases k <;> simp

/-- Settles O30: an effect exists, and it is that the command is held or one of the answers. -/
theorem everyCommandHasOneOutcome : Obligations.EveryCommandHasOneOutcome := by
  intro p w s hinv
  obtain ⟨-, ⟨hhead, htail, -⟩, -⟩ := hinv
  obtain ⟨t, he⟩ := exists_commandEffect p w s hhead htail
  obtain ⟨hh, rfl⟩ | ⟨hh, st, d, u, ha, rfl⟩ := held_or_answer_of_effect he
  · obtain ⟨hp, hq⟩ := (held_eq_true p t).1 hh
    exact .inl ⟨hp, hq, he.issue_eq⟩
  · have hstatus : (respWord st d).extractLsb' 24 8 = statusCode st := (respWord_fields st d).1
    have hdata : (respWord st d).extractLsb' 0 16 = d := (respWord_fields st d).2
    have hports := ha.samePorts
    refine .inr ⟨(held_eq_false p s).1 hh, _, respWord st d, he.issue_eq, ?pc, ?resp, hports.cmds, hports.schedule,
      he.cfg_eq, he.pEn_eq, ?_⟩
    case pc => rw [answered_pc, hports.pc]
    case resp => rw [answered_resp, hports.resp]
    rw [hstatus, hdata]
    refine ⟨statusCode_mem st, respWord_reserved st d, fun hrefused => ?_, ha.data_eq_zero⟩
    rw [ha.eq_of_refused hrefused]

/-! ### Faults (R121, R122, R124) -/

/-- Fault entry, on any block: the code of the first fault is kept (R121). -/
theorem raiseFault_eq (p : Port) (c : Cause) (s : State) :
    raiseFault p c s = answered p 0xFF000000#32
      { s with faultCode := if s.faultCode = 0x00#8 then causeCode c else s.faultCode } := by
  rw [raiseFault, complete_eq_answered, respWord_fault, recordFault]
  split_ifs <;> rfl

/-- Settles O26: of the effects that answer, those that answer FAULT write the fault code alone. -/
theorem faultsArePrecise : Obligations.FaultsArePrecise := by
  refine ⟨raiseFault_eq, fun p w s t r hissue hresp hstatus => ?_⟩
  obtain ⟨-, rfl⟩ | ⟨-, st, d, u, ha, rfl⟩ := held_or_answer_of_effect (issue_effect p w s t hissue)
  · cases (newResponse_self p t).symm.trans hresp
  · obtain rfl := Option.some.inj ((newResponse_answered p _ s u ha.samePorts.resp).symm.trans hresp)
    obtain rfl := eq_fault_of_statusCode ((respWord_fields st d).1.symm.trans hstatus)
    obtain ⟨rfl, hu, hkept, hcode⟩ := ha.precise
    exact ⟨by rw [respWord_fault, answered_faultCode, ← hu], hkept, hcode⟩

/-- The two grounds on which a legal command raises a fault on a ready port (R124): CLEAR tests the producer, and the
three CRC commands test the accumulator. -/
theorem raises_iff_of_decode {p : Port} {w : CmdWord} {s : State} {c : Cause} {i : Instr} (hd : decode p w = .cmd i) :
    Raises p w s c ↔
      ((i = .clear p ∧ s.pEn = true) ∧ c = .clearWhileProducerActive) ∨
      (((∃ b, i = .crcFeed p b ∨ i = .crcRead p ∨ i = .crcCheck p b) ∧ s.accValid = false) ∧
        c = .crcUninitialised) := by
  have hlegal := mem_legalPorts_of_decode hd
  have hport := eq_port_of_decode hd
  rw [Raises, hd]
  constructor
  · rintro (⟨⟨why, hill⟩, -⟩ | ⟨hclear, he, rfl⟩ | ⟨⟨b, hcrc⟩, hv, rfl⟩)
    · cases hill
    · cases hclear
      exact .inl ⟨⟨hport ▸ rfl, he⟩, rfl⟩
    · refine .inr ⟨⟨⟨b, ?_⟩, hv⟩, rfl⟩
      obtain hcrc | hcrc | hcrc := hcrc <;> cases hcrc <;> simp [hport, Instr.port]
  · rintro (⟨⟨rfl, he⟩, rfl⟩ | ⟨⟨⟨b, hcrc⟩, hv⟩, rfl⟩)
    · obtain rfl : p = .C := List.mem_singleton.1 hlegal
      exact .inr (.inl ⟨rfl, he, rfl⟩)
    · obtain rfl : p = .K := by
        obtain rfl | rfl | rfl := hcrc <;> exact List.mem_singleton.1 hlegal
      exact .inr (.inr ⟨⟨b, by simpa using hcrc⟩, hv, rfl⟩)

/-- Settles O28: the gate's two tests, then the grounds on which a word raises a fault, and else one of the other
answers. -/
theorem testsStandInOrder : Obligations.TestsStandInOrder := by
  refine ⟨⟨.reservedBits, by decide⟩, fun p w s hinv => ⟨?held, ?faulted, ?illegal, ?legal⟩⟩
  case held => exact fun h => (issue_gate p w s).1 ((held_eq_true p s).2 h)
  case faulted => exact fun hheld => (issue_gate p w s).2 ((held_eq_false p s).2 hheld)
  case illegal => exact fun hr why hd => issue_of_raises p w s .illegalCommand hr (.inl ⟨⟨why, hd⟩, rfl⟩)
  case legal =>
    intro hr i hd
    refine ⟨fun hclear => ?_, fun hcrc => ?_, fun hclear hcrc => ?_⟩
    · exact issue_of_raises p w s _ hr ((raises_iff_of_decode hd).2 (.inl ⟨hclear, rfl⟩))
    · exact issue_of_raises p w s _ hr ((raises_iff_of_decode hd).2 (.inr ⟨hcrc, rfl⟩))
    · obtain ⟨-, ⟨hhead, htail, -⟩, -⟩ := hinv
      have hno (c : Cause) : ¬ Raises p w s c := by
        rw [raises_iff_of_decode hd]
        rintro (⟨⟨hi, he⟩, -⟩ | ⟨⟨hi, hv⟩, -⟩)
        · cases (hclear hi).symm.trans he
        · cases (hcrc hi).symm.trans hv
      obtain ⟨t, he⟩ := exists_commandEffect p w s hhead htail
      obtain ⟨hh, -⟩ | ⟨-, st, d, u, ha, rfl⟩ := held_or_answer_of_effect he
      · cases hh.symm.trans ((ready_iff p s).1 hr).2
      · obtain ⟨hcode, hmem⟩ := ha.unfaulted hr.1 hno
        refine ⟨_, respWord st d, he.issue_eq, newResponse_answered p _ s u ha.samePorts.resp, hcode, ?_⟩
        change (respStatus (respWord st d)).toNat ∈ _
        rwa [(respWord_fields st d).1]

/-! ### The host's actions, enabled commands and the end of a run (R132, R134, R150) -/

/-- Settles O59: the two host actions are updates of the one field, and no test stands before a host action. -/
theorem hostWritesOnlyTheEnable : Obligations.HostWritesOnlyTheEnable := fun _ => ⟨rfl, rfl, rfl, rfl, rfl⟩

/-- A command is a step when its port's list has one left and nothing holds it (R131, R134). -/
theorem enabled_command_iff (p : Port) (s : State) :
    enabled (.command p) s = true ↔ (∃ w, fetch p s = some w) ∧ held p s = false := by
  simp [enabled, Option.isSome_iff_exists]

theorem commandHeld_iff (s : State) : commandHeld s = true ↔ s.pEn = false ∧ ∃ w, fetch .P s = some w := by
  simp [commandHeld, held_eq_true, Option.isSome_iff_exists, and_comm]

/-- The four conditions of R150. -/
theorem successfulEnd_iff (s : State) :
    successfulEnd s = true ↔
      (s.pc.onP = s.cmds.onP.length ∧ s.pc.onC = s.cmds.onC.length ∧ s.pc.onK = s.cmds.onK.length) ∧
      s.faultCode = 0x00#8 ∧ commandHeld s = false ∧
      (s.cfg.viewMode = .lagging → s.tailViewP = s.tail ∧ s.headViewC = s.head) := by
  simp only [successfulEnd, Bool.and_eq_true, decide_eq_true_eq, Bool.not_eq_true', and_assoc]

/-- Settles O25: the gate holds port P and no other while `p_en` is 0, and RESUME and RESET write `p_en` alone of what
it reads. -/
theorem quiescentProducerIsHeld : Obligations.QuiescentProducerIsHeld := by
  refine ⟨fun s w hq => ?_, fun s p w hp hw => ?_⟩
  · have hheld : held .P s = true := (held_eq_true .P s).2 ⟨rfl, hq⟩
    refine ⟨(issue_gate .P w s).1 hheld, ?_, fun hw => ⟨?_, ?_, ?_⟩⟩
    · rw [Bool.eq_false_iff, ne_eq, enabled_command_iff]
      simp [hheld]
    · rw [Bool.eq_false_iff, ne_eq, successfulEnd_iff]
      simp [(commandHeld_iff s).2 ⟨hq, w, hw⟩]
    · exact (enabled_command_iff .P _).2 ⟨⟨w, hw⟩, (held_eq_false .P _).2 fun _ => rfl⟩
    · refine (enabled_command_iff .P _).2 ⟨⟨w, ?_⟩, (held_eq_false .P _).2 fun _ => hostReset_pEn s⟩
      rwa [fetch, hostReset_cmds, hostReset_pc]
  · exact (enabled_command_iff p s).2 ⟨⟨w, hw⟩, (held_eq_false p s).2 fun h => absurd h hp⟩

/-- Settles O27: the gate answers FAULT for every word, and every other test of the fault code fails. -/
theorem faultedBlockAnswersFault : Obligations.FaultedBlockAnswersFault := by
  intro s hf
  obtain ⟨hquiesce, hresume, -⟩ := hostWritesOnlyTheEnable s
  refine ⟨fun p w hp => (issue_gate p w s).2 ((held_eq_false p s).2 hp) hf,
    fun w hq => (issue_gate .P w s).1 ((held_eq_true .P s).2 ⟨rfl, hq⟩), ?syncT, ?syncH, hquiesce, hresume,
    ⟨_, rfl, hostReset_faultCode s⟩, ?ended⟩
  case syncT => exact Bool.eq_false_iff.2 fun h => hf ((syncTEnabled_iff s).1 h).2.2
  case syncH => exact Bool.eq_false_iff.2 fun h => hf ((syncHEnabled_iff s).1 h).2.2
  case ended => exact Bool.eq_false_iff.2 fun h => hf ((successfulEnd_iff s).1 h).2.1

end Sys2Proof.Machine
end

section
/-! PROOFS. 70_reset_and_hazards.md: the emptied ring (R85, R140, R141), CLEAR and the producer (R142, R143), and the
accumulator carried over between groups (R145). -/

namespace Sys2Proof.Machine

open Sys2Proof

/-! ### The emptied ring: what RESET and CLEAR leave (R85, R140) -/

/-- Both indices, and both as the other port sees them, at 0. -/
structure Emptied (s : State) : Prop where
  head : s.head = 0
  tail : s.tail = 0
  tailView : readTailView s = 0
  headView : readHeadView s = 0

/-- A write of 0 to both indices and both views empties the ring in either mode: in `coherent` mode the views read the
indices (R26). -/
theorem emptied_writeViews (s : State) (hhead : s.head = 0) (htail : s.tail = 0) : Emptied (writeViews 0 0 s) where
  head := (writeViews_head 0 0 s).trans hhead
  tail := (writeViews_tail 0 0 s).trans htail
  tailView := by cases hm : s.cfg.viewMode <;> simp [readTailView, hm, htail]
  headView := by cases hm : s.cfg.viewMode <;> simp [readHeadView, hm, hhead]

theorem emptied_hostReset (s : State) : Emptied (hostReset s) := emptied_writeViews _ rfl rfl

theorem emptied_cleared (s : State) : Emptied (cleared s) := emptied_writeViews _ rfl rfl

section

variable {s : State} (h : Emptied s)

include h

/-- An emptied ring has nothing to count on either port (R83). -/
theorem Emptied.availOn_eq_zero {p : Port} (hp : p = .P ∨ p = .C) : availOn p s = some 0 := by
  obtain rfl | rfl := hp
  · simp only [availOn, indicesSeen, h.head, h.tailView, Option.map_some, modN_self]
  · simp only [availOn, indicesSeen, h.tail, h.headView, Option.map_some, modN_self]

theorem Emptied.queue_eq_nil : queue s = [] := queue_eq_nil_of_head_eq_tail s (h.head.trans h.tail.symm)

theorem Emptied.emptySeen_eq_true : emptySeen s = true := decide_eq_true (h.tail.trans h.headView.symm)

/-- With two slots or more, an emptied ring has room for a byte (R4, R81). -/
theorem Emptied.fullSeen_eq_false (hN : 2 ≤ s.cfg.N) : fullSeen s = false := by
  have hnext := nextIndex_cases s.head s.cfg.N (by rw [h.head]; omega)
  rw [h.head] at hnext
  apply decide_eq_false
  rw [h.head, h.tailView]
  omega

end

/-! ### RESET (R140, R141) -/

/-- Settles O57, element by element; the views are those of the emptied ring. -/
theorem resetSetsEveryElement : Obligations.ResetSetsEveryElement := by
  intro s
  have hempty := emptied_hostReset s
  refine ⟨hostReset s, rfl, hempty.head, hempty.tail, hostReset_pEn s, hostReset_accValid s, hostReset_faultCode s,
    fun hlag => ?views, hempty.tailView, hempty.headView, fun a => ?storage, hostReset_pc s, hostReset_cmds s,
    hostReset_resp s, hostReset_schedule s, hostReset_cfg s⟩
  case views => simp [hlag]
  case storage => rw [hostReset_storage]; rfl

/-- After RESET nothing holds a port and the block is not faulted. -/
theorem ready_hostReset (p : Port) (s : State) : Ready p (hostReset s) :=
  ⟨hostReset_faultCode s, fun _ => hostReset_pEn s⟩

/-- Settles O58: each command's own rule, on the emptied ring and with `acc_valid` at 0. -/
theorem afterResetBufferIsEmpty : Obligations.AfterResetBufferIsEmpty := by
  intro s t hcfg h
  obtain ⟨hN, hN'⟩ := hcfg
  cases h
  have hempty := emptied_hostReset s
  have hready p := ready_hostReset p s
  rw [← hostReset_cfg s] at hN hN' ⊢
  refine ⟨fun p hp => ?counts, exec_get_empty (hready .C) hempty.emptySeen_eq_true, fun b => ?put, fun i b hi => ?crc,
    exec_crcInit _ (hready .K)⟩
  case counts =>
    have havail := hempty.availOn_eq_zero hp
    exact ⟨exec_avail (hready p) hN' hp (by omega) havail,
      exec_free (hready p) hN' hp (by omega) (freeOn_of_availOn havail)⟩
  case put =>
    have hhead : (hostReset s).head < (hostReset s).cfg.N := by rw [hempty.head]; omega
    exact ⟨_, exec_put b (hready .P) hhead (hempty.fullSeen_eq_false hN), newResponse_answered _ _ _ _ rfl⟩
  case crc => exact exec_crc_uninitialised i b _ (hready .K) (hostReset_accValid s) hi

/-! ### CLEAR and the producer (R142, R143) -/

/-- Settles O18: an active producer is the ground on which CLEAR raises its fault. -/
theorem clearAgainstActiveProducerFaults : Obligations.ClearAgainstActiveProducerFaults := by
  intro s hf he
  have hready : Ready .C s := ⟨hf, nofun⟩
  have hraises : Raises .C (encode (.clear .C)) s .clearWhileProducerActive :=
    .inr (.inl ⟨decode_encode_of_wellFormed (.clear .C) rfl, he, rfl⟩)
  exact CommandEffect.exec_eq (i := .clear .C) (.raised hready _ hraises)

theorem runActions_cons {a : Action} {s t : State} (h : perform a s = .next t) (as : List Action) :
    runActions (a :: as) s = runActions as t := by
  rw [runActions, h]

/-- The protocol of R142 (4): QUIESCE makes CLEAR legal, and RESUME writes `p_en` alone. -/
theorem runActions_clearProtocol (s : State) (hf : s.faultCode = 0x00#8) (hw : fetch .C s = some 0x5000#16) :
    runActions [.quiesce, .command .C, .resume] s =
      .next (hostResume (answered .C 0x00000000#32 (cleared (hostQuiesce s)))) := by
  have hclear : perform (.command .C) (hostQuiesce s) = .next (answered .C 0x00000000#32 (cleared (hostQuiesce s))) :=
    calc perform (.command .C) (hostQuiesce s)
        = issue .C 0x5000#16 (hostQuiesce s) := perform_command_of_fetch .C _ _ hw
      _ = exec (.clear .C) (hostQuiesce s) := (exec_eq_issue (.clear .C) _).symm
      _ = _ := exec_clear ⟨hf, nofun⟩ rfl
  have hquiesce : perform .quiesce s = .next (hostQuiesce s) := rfl
  rw [runActions_cons hquiesce, runActions_cons hclear]
  rfl

/-- Settles O41: CLEAR empties the ring and keeps storage and the CRC unit, and RESUME keeps all but `p_en`. -/
theorem clearProtocolEmptiesTheBuffer : Obligations.ClearProtocolEmptiesTheBuffer := by
  intro s _ hf hw
  have hcleared := emptied_cleared (hostQuiesce s)
  have hempty : Emptied (hostResume (answered .C 0x00000000#32 (cleared (hostQuiesce s)))) :=
    ⟨hcleared.head, hcleared.tail, hcleared.tailView, hcleared.headView⟩
  refine ⟨_, runActions_clearProtocol s hf hw, hempty.queue_eq_nil, hempty.head, hempty.tail, rfl, ?fault, ?storage,
    ?acc, ?accValid, ?response, hempty.availOn_eq_zero (.inl rfl), hempty.availOn_eq_zero (.inr rfl)⟩
  case fault => exact (writeViews_faultCode _ _ _).trans hf
  case storage => exact writeViews_storage _ _ _
  case acc => exact writeViews_acc _ _ _
  case accValid => exact writeViews_accValid _ _ _
  case response => exact newResponse_answered .C _ s (cleared (hostQuiesce s)) (writeViews_resp _ _ _)

/-! ### The accumulator carried over (R145) -/

/-- Bytes fed and a byte checked, from whatever the accumulator holds: GROUPCHECK without its CRC.INIT. -/
theorem runCommands_feedCheck (s : State) (d : List Byte) (c : Byte) (hr : Ready .K s) (hv : s.accValid = true) :
    runCommands (d.map (.crcFeed .K) ++ [.crcCheck .K c]) s =
      .next (answeredAll .K (feedResponses s.acc d ++ [checkResponse (d.foldl crc8Update s.acc) c])
        { s with acc := d.foldl crc8Update s.acc }) := by
  rw [runCommands_append (runCommands_crcFeed s d hr hv), runCommands_cons (exec_crcCheck _ c ?ready ?started),
    ← answered_answeredAll]
  case ready => exact hr
  case started => exact hv
  rfl

/-- CRC.CHECK's answer is OK, with the accumulator, exactly where it found the byte it was given (R106). -/
theorem checkResponse_eq_ok_iff (a c : Byte) : checkResponse a c = 0x000000#24 ++ a ↔ a = c := by
  refine ⟨fun h => ?_, fun h => if_pos h⟩
  rw [← respStatus_checkResponse_ok_iff, h]
  exact respStatus_ok_byte a

/-- Settles O56: the second group's bytes are fed to what the first group left, which CRC.CHECK did not change. -/
theorem accumulatorCarriesOver : Obligations.AccumulatorCarriesOver := by
  intro s g h hr
  have hfirst := runCommands_groupCheck s g hr
  have hsecond := runCommands_feedCheck
    (answeredAll .K (groupResponses g) { s with acc := crc8 [g.msb, g.lsb], accValid := true })
    [h.msb, h.lsb] h.crc hr rfl
  refine ⟨_, (runCommands_append hfirst _).trans hsecond, rfl, ?_⟩
  rw [onK_answeredAll, ← List.append_assoc, List.getLast?_concat, Option.some_inj, eq_comm (a := h.crc)]
  exact checkResponse_eq_ok_iff _ _

end Sys2Proof.Machine
end

section
/-! PROOFS. 70_reset_and_hazards.md: the end of a run (R150), and the views that catch up under weak fairness (R149). -/

namespace Sys2Proof.Machine

open Sys2Proof

/-! ### The end of a run (R150) -/

/-- A port whose index has passed its whole list has no command to issue (R32). -/
theorem fetch_eq_none_of_pc_eq (p : Port) (s : State) (h : s.pc.get p = (s.cmds.get p).length) : fetch p s = none :=
  List.getElem?_eq_none h.ge

/-- An agent's action that is not enabled changes nothing (log entry 4). -/
theorem perform_of_not_enabled (a : Action) (s : State) (ha : a ∈ agentActions) (h : enabled a s = false) :
    perform a s = .next s := by
  cases a with
  | command p =>
    cases hw : fetch p s with
    | none => exact perform_command_of_no_fetch p s hw
    | some w =>
      have hheld : held p s = true := by simpa [enabled, hw] using h
      exact (perform_command_of_fetch p w s hw).trans ((issue_gate p w s).1 hheld)
  | syncT => exact congrArg Host.Outcome.next (syncTail_of_not_enabled s h)
  | syncH => exact congrArg Host.Outcome.next (syncHead_of_not_enabled s h)
  | reset | quiesce | resume => simp [agentActions] at ha

theorem agentCanStep_eq_false_iff (s : State) :
    agentCanStep s = false ↔ ∀ a, a ∈ agentActions → enabled a s = false := by
  simp only [agentCanStep, List.any_eq_false, Bool.not_eq_true]

/-- At a successful end the lists have ended and the views are current, so no agent has a step. -/
theorem agentCanStep_of_successfulEnd (s : State) (h : successfulEnd s = true) : agentCanStep s = false := by
  obtain ⟨⟨hP, hC, hK⟩, -, -, hviews⟩ := (successfulEnd_iff s).1 h
  have hcommand (p : Port) : enabled (.command p) s = false := by
    have hfetch : fetch p s = none := by
      apply fetch_eq_none_of_pc_eq
      cases p with
      | P => exact hP
      | C => exact hC
      | K => exact hK
    simp [enabled, hfetch]
  have hsyncT : enabled .syncT s = false :=
    Bool.eq_false_iff.2 fun hen =>
      have ⟨hlag, hne, _⟩ := (syncTEnabled_iff s).1 hen
      hne (hviews hlag).1
  have hsyncH : enabled .syncH s = false :=
    Bool.eq_false_iff.2 fun hen =>
      have ⟨hlag, hne, _⟩ := (syncHEnabled_iff s).1 hen
      hne (hviews hlag).2
  simp [agentCanStep, agentActions, hcommand, hsyncT, hsyncH]

/-- Settles O60: the four conditions leave no agent a step, and where none has one an end is successful or failed. -/
theorem successfulEndsAreFinal : Obligations.SuccessfulEndsAreFinal := by
  intro s
  refine ⟨?_, fun hend => ?_, fun hstop => ?_, fun hstep => ?_⟩
  · rw [successfulEnd_iff, ← commandHeld_iff, Bool.not_eq_true]
  · have hstop := agentCanStep_of_successfulEnd s hend
    exact ⟨hstop, fun a ha => perform_of_not_enabled a s ha ((agentCanStep_eq_false_iff s).1 hstop a ha)⟩
  · simp [failedEnd, hstop]
  · simp [failedEnd, hstep]

/-! ### The views on an infinite run (R149) -/

/-- An action that stops leaves the state; any other is taken. -/
theorem afterAction_cases (a : Action) (s : State) : afterAction a s = s ∨ perform a s = .next (afterAction a s) := by
  unfold afterAction
  cases hp : perform a s with
  | next t => exact .inr rfl
  | fault | refused => exact .inl rfl

theorem afterAction_cfg (a : Action) (s : State) : (afterAction a s).cfg = s.cfg := by
  obtain h | h := afterAction_cases a s
  · rw [h]
  · exact perform_cfg a s _ h

theorem trajectory_cfg (sched : Nat → Action) (s : State) (m : Nat) : (trajectory sched s m).cfg = s.cfg := by
  induction m with
  | zero => rfl
  | succ m ih => exact (afterAction_cfg _ _).trans ih

/-- A command that writes the views is CLEAR, which leaves them at the indices it wrote (R85). -/
theorem CommandEffect.views_current {p : Port} {w : CmdWord} {s t : State} (he : CommandEffect p w s t) :
    (t.tailViewP = s.tailViewP ∨ t.tailViewP = t.tail) ∧ (t.headViewC = s.headViewC ∨ t.headViewC = t.head) := by
  cases he with
  | clear => cases hm : s.cfg.viewMode <;> simp [hm]
  | _ => exact ⟨.inl rfl, .inl rfl⟩

/-- Whatever writes a view leaves it current (R25, R27, R85, R140). -/
theorem perform_views_current (a : Action) (s t : State) (h : perform a s = .next t) :
    (t.tailViewP = s.tailViewP ∨ t.tailViewP = t.tail) ∧ (t.headViewC = s.headViewC ∨ t.headViewC = t.head) := by
  cases perform_effect a s t h with
  | command p w t hw he => exact he.views_current
  | syncT => cases hen : syncTEnabled s <;> simp [hen]
  | syncH => cases hen : syncHEnabled s <;> simp [hen]
  | reset => cases hm : s.cfg.viewMode <;> simp [hm]
  | none | quiesce | resume => exact ⟨.inl rfl, .inl rfl⟩

/-- The action `a` is the synchroniser step that copies `index` to `view`: it is enabled while the view is behind on an
unfaulted `lagging` block, it makes the view current, and nothing else moves the view away from the index. -/
structure Synchronises (a : Action) (index view : State → Nat) : Prop where
  enabled_of_behind : ∀ u : State, u.cfg.viewMode = .lagging → u.faultCode = 0x00#8 → view u ≠ index u →
    enabled a u = true
  current_of_taken : ∀ u : State, u.cfg.viewMode = .lagging → u.faultCode = 0x00#8 →
    view (afterAction a u) = index (afterAction a u)
  kept_or_current : ∀ (b : Action) (u : State),
    view (afterAction b u) = view u ∨ view (afterAction b u) = index (afterAction b u)

theorem syncT_synchronises : Synchronises .syncT State.tail State.tailViewP where
  enabled_of_behind u hlag hf hne := (syncTEnabled_iff u).2 ⟨hlag, hne, hf⟩
  current_of_taken u hlag hf := by
    have htaken : afterAction .syncT u = syncTail u := rfl
    rw [htaken, syncTail_current u hlag (.inl hf)]
  kept_or_current b u := by
    obtain h | h := afterAction_cases b u
    · exact .inl (congrArg State.tailViewP h)
    · exact (perform_views_current b u _ h).1

theorem syncH_synchronises : Synchronises .syncH State.head State.headViewC where
  enabled_of_behind u hlag hf hne := (syncHEnabled_iff u).2 ⟨hlag, hne, hf⟩
  current_of_taken u hlag hf := by
    have htaken : afterAction .syncH u = syncHead u := rfl
    rw [htaken, syncHead_current u hlag (.inl hf)]
  kept_or_current b u := by
    obtain h | h := afterAction_cases b u
    · exact .inl (congrArg State.headViewC h)
    · exact (perform_views_current b u _ h).2

section

variable {a : Action} {index view : State → Nat} (hsync : Synchronises a index view) {sched : Nat → Action} {s : State}
  {k : Nat}

include hsync

/-- A current view stays current while its index does not change. -/
theorem Synchronises.stays_current {n : Nat}
    (hindex : ∀ m, k ≤ m → index (trajectory sched s m) = index (trajectory sched s k)) (hn : k ≤ n)
    (hcurrent : view (trajectory sched s n) = index (trajectory sched s n)) (m : Nat) (hm : n ≤ m) :
    view (trajectory sched s m) = index (trajectory sched s m) := by
  induction m, hm using Nat.le_induction with
  | base => exact hcurrent
  | succ m hm ih =>
    obtain hkept | hcurrent' := hsync.kept_or_current (sched m) (trajectory sched s m)
    · calc view (trajectory sched s (m + 1))
          = view (trajectory sched s m) := hkept
        _ = index (trajectory sched s m) := ih
        _ = index (trajectory sched s k) := hindex m (hn.trans hm)
        _ = index (trajectory sched s (m + 1)) := (hindex (m + 1) (by omega)).symm
    · exact hcurrent'

/-- If the view never became current, the step would stay enabled; so it is taken, and makes the view current. -/
theorem Synchronises.becomes_current (hlag : s.cfg.viewMode = .lagging) (hfair : WeaklyFair a sched s)
    (hunfaulted : ∀ m, k ≤ m → (trajectory sched s m).faultCode = 0x00#8) :
    ∃ n, k ≤ n ∧ view (trajectory sched s n) = index (trajectory sched s n) := by
  have hlagging (m : Nat) : (trajectory sched s m).cfg.viewMode = .lagging := by rw [trajectory_cfg, hlag]
  by_contra! hbehind
  obtain ⟨m, hm, ha⟩ := hfair k fun m hm => hsync.enabled_of_behind _ (hlagging m) (hunfaulted m hm) (hbehind m hm)
  apply hbehind (m + 1) (by omega)
  rw [trajectory, ha]
  exact hsync.current_of_taken _ (hlagging m) (hunfaulted m hm)

/-- Under weak fairness of its synchroniser step, a view is current from some point on (R149). -/
theorem Synchronises.catches_up (hlag : s.cfg.viewMode = .lagging) (hfair : WeaklyFair a sched s)
    (hstable : ∀ m, k ≤ m → index (trajectory sched s m) = index (trajectory sched s k) ∧
      (trajectory sched s m).faultCode = 0x00#8) :
    ∃ n, k ≤ n ∧ ∀ m, n ≤ m → view (trajectory sched s m) = index (trajectory sched s m) := by
  obtain ⟨n, hn, hcurrent⟩ := hsync.becomes_current hlag hfair fun m hm => (hstable m hm).2
  exact ⟨n, hn, hsync.stays_current (fun m hm => (hstable m hm).1) hn hcurrent⟩

end

/-- Settles O48, for SYNC_T with `tail` and for SYNC_H with `head`. -/
theorem viewsCatchUp : Obligations.ViewsCatchUp := fun _ _ _ hlag =>
  ⟨fun hfair _ hstable => syncT_synchronises.catches_up hlag hfair hstable,
    fun hfair _ hstable => syncH_synchronises.catches_up hlag hfair hstable⟩

end Sys2Proof.Machine
end

section
/-! PROOFS. The model's own choices of the assumption log: the word placed as the next command (log entry 6), and the
two stops, at a slot that does not exist and with no action left (log entries 4, 5, 13). -/

namespace Sys2Proof.Machine

open Sys2Proof

/-! ### The placed word (log entry 6) -/

theorem toOption_eq_some_iff (d : Decoded) (i : Instr) : d.toOption = some i ↔ d = .cmd i := by
  cases d <;> simp [Decoded.toOption]

/-- A number given on 16 bits is cut to a command word as it stands (R60). -/
theorem firstWord_sixteen (w : Nat) : firstWord 16 w = BitVec.ofNat 16 w :=
  BitVec.eq_of_toNat_eq (by simp [firstWord])

/-- A table word that decodes is a word of its command on the command's own port. -/
theorem portOfWord_of_decodeTableWord {w : Nat} {i : Instr} (h : decodeTableWord 16 w = some i) :
    portOfWord (BitVec.ofNat 16 w) = i.port ∧ decode i.port (BitVec.ofNat 16 w) = .cmd i := by
  rw [decodeTableWord, firstWord_sixteen, toOption_eq_some_iff] at h
  have hport : portOfWord (BitVec.ofNat 16 w) = i.port := eq_port_of_decode h
  exact ⟨hport, hport ▸ h⟩

/-- The step after a word is loaded issues it, on the schedule as it was before. -/
theorem step_loadNext (p : Port) (w : CmdWord) (s : State) :
    step (loadNext p w s) =
      issue p w { s with cmds := s.cmds.set p (placeAt (s.cmds.get p) (s.pc.get p) w) } := by
  obtain ⟨hfetch, hsched⟩ := loadNext_spec p w s
  exact (step_of_schedule hsched).trans (perform_command_of_fetch p w _ hfetch)

/-- Settles O8: the placed word is issued, and on the port it is placed on it decodes to its command. -/
theorem placedWordIsRun : Obligations.PlacedWordIsRun := by
  intro s w i h
  obtain ⟨hport, hdecode⟩ := portOfWord_of_decodeTableWord h
  rw [State.withFetchWord, firstWord_sixteen, hport, step_loadNext]
  exact issue_of_decode i.port (BitVec.ofNat 16 w) i _ hdecode

/-! ### A slot that does not exist (R40, log entry 13) -/

theorem memWrite_eq_none {i : Nat} {s : State} (h : s.cfg.N ≤ i) (v : Byte) : memWrite i v s = none :=
  if_neg (Nat.not_lt.2 h)

theorem memRead_eq_none {i : Nat} {s : State} (h : s.cfg.N ≤ i) : memRead i s = none :=
  if_neg (Nat.not_lt.2 h)

/-- Settles O14: past the gate and the test for full or empty, the storage access is all that is left to answer. -/
theorem slotBeyondStorageStops : Obligations.SlotBeyondStorageStops := by
  intro s b
  constructor
  · intro hr hhead hne
    have hf : fullSeen s = false := decide_eq_false hne
    rw [exec, execPut, runCommand_ready (.put .P b) s _ hr rfl]
    simp [hf, memWrite_eq_none hhead]
  · intro hr htail hne
    have he : emptySeen s = false := decide_eq_false hne
    rw [exec, execGet, runCommand_ready (.get .C) s _ hr rfl]
    simp [he, memRead_eq_none htail]

/-! ### The end of the schedule (log entries 4 and 5) -/

theorem step_of_schedule_nil {s : State} (h : s.schedule = []) : step s = .fault .scheduleEnded := by
  simp only [step, h]

/-- No action stops, if the slots that the two indices name exist: an action that is not enabled leaves the block as it
is (log entry 4), and a command always has an effect. -/
theorem exists_perform_eq_next (a : Action) (s : State) (hhead : s.head < s.cfg.N) (htail : s.tail < s.cfg.N) :
    ∃ t, perform a s = .next t := by
  cases a with
  | command p =>
    cases hw : fetch p s with
    | none => exact ⟨s, perform_command_of_no_fetch p s hw⟩
    | some w =>
      obtain ⟨t, he⟩ := exists_commandEffect p w s hhead htail
      exact ⟨t, (perform_command_of_fetch p w s hw).trans he.issue_eq⟩
  | syncT | syncH | reset | quiesce | resume => exact ⟨_, rfl⟩

/-- Settles O9: in a legal state both indices name slots that exist, so the first action of the schedule is taken. -/
theorem stepStopsOnlyWithoutAction : Obligations.StepStopsOnlyWithoutAction := by
  rintro s ⟨-, ⟨hhead, htail, -⟩, -⟩
  refine ⟨fun hne => ?_, step_of_schedule_nil⟩
  obtain ⟨a, rest, hsched⟩ := List.exists_cons_of_ne_nil hne
  rw [step_of_schedule hsched]
  exact exists_perform_eq_next a { s with schedule := rest } hhead htail

end Sys2Proof.Machine
end
